-- ==== Sys2Proof/Word.lean ====
section
/-! DEFINITION. The word types of XCORE (spec 00_scope.md R8, R9): every value is unsigned and its arithmetic wraps. -/

namespace Sys2Proof

/-- A byte of a seed or of FILL's output. -/
abbrev Byte := BitVec 8

/-- A beat of a command port, or a state word of a 32-bit variant (00_scope.md R11 "Beat"). -/
abbrev Word := BitVec 32

/-- A state word of a 64-bit variant, or a 64-bit operand or result. -/
abbrev Word64 := BitVec 64

end Sys2Proof
end

