-- ==== Sys2Proof/Config.lean ====
section
/-! DEFINITION. What is fixed when the hardware is built: the variants with their constants (spec 00_scope.md R6), the build
parameters of an instance (R7), and the configuration `State.reset` is given in (assumption log 1). -/

namespace Sys2Proof

/-- The six variants of an instance (00_scope.md R4, R6). -/
inductive Variant where
  | SM64
  | X128SS
  | X128P
  | XR128SS
  | XR128P
  | X128SS_V
  deriving DecidableEq, Repr

namespace Variant

/-- The variant code (00_scope.md R6, 92_eei_decisions.md D27). -/
def code : Variant → BitVec 4
  | SM64 => 1
  | X128SS => 2
  | X128P => 3
  | XR128SS => 4
  | XR128P => 5
  | X128SS_V => 6

/-- w, the native width in bits (00_scope.md R6). -/
def width : Variant → Nat
  | SM64 | XR128SS | XR128P => 64
  | X128SS | X128P | X128SS_V => 32

/-- n, the number of state words (00_scope.md R6). -/
def stateLen : Variant → Nat
  | SM64 => 1
  | XR128SS | XR128P => 2
  | X128SS | X128P | X128SS_V => 4

/-- SEED_BYTES = n·w/8 (00_scope.md R6). -/
def seedBytes (v : Variant) : Nat := v.stateLen * v.width / 8

/-- The two-word variants, the only ones that reject a zero seed (44_engine_commands.md R166). -/
def isXoroshiro : Variant → Bool
  | XR128SS | XR128P => true
  | SM64 | X128SS | X128P | X128SS_V => false

/-- The JUMP column of 00_scope.md R6. -/
def hasJump : Variant → Bool
  | X128SS | X128P | XR128SS | XR128P => true
  | SM64 | X128SS_V => false

/-- The vector unit (46_simd.md R220). -/
def isVector : Variant → Bool
  | X128SS_V => true
  | SM64 | X128SS | X128P | XR128SS | XR128P => false

end Variant

/-- The build parameters of one instance: VARIANT[e], and HAS_LANE_BLEND as that instance sees it (00_scope.md R7; the
spec's program P4 gives two instances different values of it, assumption log 2). -/
structure Build where
  variant : Variant
  hasLaneBlend : Bool
  deriving DecidableEq, Repr

/-- VEC_OK: the vector unit with the lane blend present (10_state.md R27). -/
def Build.vecOk (b : Build) : Bool := b.variant.isVector && b.hasLaneBlend

/-- DESIGN CHOICE (assumption log 1): the spec leaves NUM_ENGINES and VARIANT[e] open; `State.reset` is the XCORE with one
instance of each variant, the vector unit once with and once without the lane blend. Every statement quantifies over all
configurations instead. -/
def Config.builds : List Build :=
  [⟨.X128SS, false⟩, ⟨.X128P, false⟩, ⟨.XR128SS, false⟩, ⟨.XR128P, false⟩, ⟨.SM64, false⟩,
   ⟨.X128SS_V, true⟩, ⟨.X128SS_V, false⟩]

/-- k of `jump()`: JUMP advances by 2^64 native steps on every variant that has it (00_scope.md R6, 45_jump.md R204). -/
def Config.jumpDistance : Nat := 2 ^ 64

end Sys2Proof
end

