-- ==== Sys2Proof/Syntax.lean ====
section
/-! DEFINITION. The commands as syntax: the nine operation codes (spec 30_encoding.md R72) and the command terms
(CW, in-beats) of R70, one constructor per row of spec/opcode_table.json. -/

namespace Sys2Proof

/-- The assigned operation codes (30_encoding.md R72). -/
inductive Opcode where
  | SEED
  | SEED_U64
  | NEXT_U32
  | NEXT_U64
  | FILL
  | JUMP
  | STATE_READ
  | READ_STATUS
  | READ_CAP
  deriving DecidableEq, Repr

/-- A legal command with its operands (30_encoding.md R70, R76). -/
inductive Instr where
  /-- SEED with its in-beats, SEED_BYTES/4 of them (R75, R76). -/
  | seed (beats : List Word)
  /-- SEED_U64 with the 64-bit operand v (R76). -/
  | seedU64 (v : Word64)
  | nextU32
  | nextU64
  /-- FILL with the 24-bit byte count LEN (R73). -/
  | fill (len : BitVec 24)
  | jump
  | stateRead
  | readStatus
  | readCap
  deriving DecidableEq, Repr

/-- The operation code of a command (30_encoding.md R72). -/
def Instr.opcode : Instr → Opcode
  | .seed _ => .SEED
  | .seedU64 _ => .SEED_U64
  | .nextU32 => .NEXT_U32
  | .nextU64 => .NEXT_U64
  | .fill _ => .FILL
  | .jump => .JUMP
  | .stateRead => .STATE_READ
  | .readStatus => .READ_STATUS
  | .readCap => .READ_CAP

end Sys2Proof
end

