-- ==== Sys2Proof/WellFormed.lean ====
section
/-! DEFINITION. When a command term is one that a port of the given variant can deliver (spec 30_encoding.md R75): the
number of SEED's in-beats is SEED_BYTES/4. Every other operand's range is its type. -/

namespace Sys2Proof

/-- The term has the in-beats that an instance of variant `v` takes for its operation code (30_encoding.md R75). -/
def Instr.wellFormed (v : Variant) : Instr → Bool
  | .seed beats => beats.length == v.seedBytes / 4
  | .seedU64 _ | .nextU32 | .nextU64 | .fill _ | .jump | .stateRead | .readStatus | .readCap => true

end Sys2Proof
end

