-- ==== Sys2Proof/Decode.lean ====
section
/-! DEFINITION. The encoding of commands (spec 30_encoding.md R70-R76, R82): the decoder, total on every sequence of
words a port may hold and rejecting illegal command words by name, and after it the encoder. -/

namespace Sys2Proof

/-- The w-bit value that holds `x` from bit `lsb` up and 0 elsewhere (the bit numbering of 00_scope.md R9). -/
def place (w lsb : Nat) {n : Nat} (x : BitVec n) : BitVec w := x.setWidth w <<< lsb

/-- concat(hi, lo) = hi · 2^32 + lo of two 32-bit values (00_scope.md R9). -/
def concat (hi lo : Word) : Word64 := place 64 32 hi ||| place 64 0 lo

/-- high32(v) (00_scope.md R9). -/
def high32 (v : Word64) : Word := v.extractLsb' 32 32

/-- low_32(v) (00_scope.md R9). -/
def low32 (v : Word64) : Word := v.extractLsb' 0 32

/-- OPC = CW[7:0] (30_encoding.md R71). -/
def opcField (cw : Word) : BitVec 8 := cw.extractLsb' 0 8

/-- LEN = CW[31:8] (30_encoding.md R71, R73). -/
def lenField (cw : Word) : BitVec 24 := cw.extractLsb' 8 24

/-- The command word with the given fields (30_encoding.md R71). -/
def commandWord (opc : BitVec 8) (len : BitVec 24) : Word := place 32 8 len ||| place 32 0 opc

/-- The operation code's number (30_encoding.md R72). -/
def Opcode.code : Opcode → BitVec 8
  | .SEED => 0x01
  | .SEED_U64 => 0x02
  | .NEXT_U32 => 0x03
  | .NEXT_U64 => 0x04
  | .FILL => 0x05
  | .JUMP => 0x06
  | .STATE_READ => 0x07
  | .READ_STATUS => 0x08
  | .READ_CAP => 0x09

/-- The opcode map; 0x00 and 0x0A-0xFF are reserved (30_encoding.md R72, R74). -/
def opcodeOf (opc : BitVec 8) : Option Opcode :=
  match opc.toNat with
  | 0x01 => some .SEED
  | 0x02 => some .SEED_U64
  | 0x03 => some .NEXT_U32
  | 0x04 => some .NEXT_U64
  | 0x05 => some .FILL
  | 0x06 => some .JUMP
  | 0x07 => some .STATE_READ
  | 0x08 => some .READ_STATUS
  | 0x09 => some .READ_CAP
  | _ => none

/-- P_in, a function of the operation code and the variant alone (30_encoding.md R75). -/
def inBeats (v : Variant) : Opcode → Nat
  | .SEED => v.seedBytes / 4
  | .SEED_U64 => 2
  | .NEXT_U32 | .NEXT_U64 | .FILL | .JUMP | .STATE_READ | .READ_STATUS | .READ_CAP => 0

/-- P_in of a command word: 0 for a reserved operation code, and that of the operation code for every other word, an illegal
one with CW[31:8] ≠ 0 included (30_encoding.md R75, 60_exceptions.md R243). -/
def frameBeats (v : Variant) (cw : Word) : Nat :=
  match opcodeOf (opcField cw) with
  | some o => inBeats v o
  | none => 0

/-- Why a command word is illegal (60_exceptions.md R243). -/
inductive Reject where
  /-- OPC is 0x00 or 0x0A-0xFF (30_encoding.md R74). -/
  | reservedOpcode (opc : BitVec 8)
  /-- CW[31:8] ≠ 0 with an operation code other than FILL (30_encoding.md R73). -/
  | reservedBits (opc : BitVec 8) (high : BitVec 24)
  deriving DecidableEq, Repr

/-- The command of an operation code, its LEN field and its in-beats (30_encoding.md R76). `decode` hands it exactly P_in
in-beats, so the 0 that stands for a missing SEED_U64 beat is never read. -/
def operands (o : Opcode) (len : BitVec 24) (beats : List Word) : Instr :=
  match o with
  | .SEED => .seed beats
  | .SEED_U64 => .seedU64 (concat (beats.getD 1 0) (beats.getD 0 0))
  | .NEXT_U32 => .nextU32
  | .NEXT_U64 => .nextU64
  | .FILL => .fill len
  | .JUMP => .jump
  | .STATE_READ => .stateRead
  | .READ_STATUS => .readStatus
  | .READ_CAP => .readCap

/-- One command word with its in-beats: the command is selected by CW[7:0] alone, then CW[31:8] is checked
(30_encoding.md R72-R74; the first two checks of 44_engine_commands.md R160). -/
def decodeCommand (cw : Word) (beats : List Word) : Except Reject Instr :=
  match opcodeOf (opcField cw) with
  | none => .error (.reservedOpcode (opcField cw))
  | some o =>
    if o ≠ .FILL ∧ lenField cw ≠ 0 then .error (.reservedBits (opcField cw) (lenField cw))
    else .ok (operands o (lenField cw) beats)

/-- What stands at the head of a port's words. -/
inductive Frame where
  /-- No whole transaction yet: no command word, or in-beats missing (70_reset_and_hazards.md R283). -/
  | wait
  /-- A legal command, and the words after it. -/
  | cmd (i : Instr) (rest : List Word)
  /-- An illegal command word with the in-beats it takes, and the words after it (60_exceptions.md R243). -/
  | reject (r : Reject) (rest : List Word)
  deriving DecidableEq, Repr

/-- The decoder: takes one transaction's words, 1 + P_in of them, off a port of variant `v` (30_encoding.md R70, R75, R79). -/
def decode (v : Variant) : List Word → Frame
  | [] => .wait
  | cw :: ws =>
    if ws.length < frameBeats v cw then .wait
    else
      match decodeCommand cw (ws.take (frameBeats v cw)) with
      | .ok i => .cmd i (ws.drop (frameBeats v cw))
      | .error r => .reject r (ws.drop (frameBeats v cw))

/-- The words of a command, CW first (30_encoding.md R71, R76, R82). -/
def encode : Instr → List Word
  | .seed beats => commandWord 0x01 0 :: beats
  | .seedU64 v => [commandWord 0x02 0, low32 v, high32 v]
  | .nextU32 => [commandWord 0x03 0]
  | .nextU64 => [commandWord 0x04 0]
  | .fill len => [commandWord 0x05 len]
  | .jump => [commandWord 0x06 0]
  | .stateRead => [commandWord 0x07 0]
  | .readStatus => [commandWord 0x08 0]
  | .readCap => [commandWord 0x09 0]

/-- The rows of spec/opcode_table.json: operation code, match and mask (30_encoding.md R72). -/
def opcodeRows : List (Opcode × Word × Word) :=
  [(.SEED, 0x00000001, 0xFFFFFFFF), (.SEED_U64, 0x00000002, 0xFFFFFFFF), (.NEXT_U32, 0x00000003, 0xFFFFFFFF),
   (.NEXT_U64, 0x00000004, 0xFFFFFFFF), (.FILL, 0x00000005, 0x000000FF), (.JUMP, 0x00000006, 0xFFFFFFFF),
   (.STATE_READ, 0x00000007, 0xFFFFFFFF), (.READ_STATUS, 0x00000008, 0xFFFFFFFF), (.READ_CAP, 0x00000009, 0xFFFFFFFF)]

/-- The pseudo-command NEXT: the native extraction of the variant (30_encoding.md R81). -/
def pseudoNext (v : Variant) : Instr := if v.width = 32 then .nextU32 else .nextU64

/-- The second half of the pseudo-command CLONE: SEED with the out-beats of a STATE_READ as operands (30_encoding.md R81). -/
def cloneSeed (outBeats : List Word) : Instr := .seed outBeats

/-- The first `n` words of an instruction whose `nbits` bits are `w`, bit 0 the least significant bit of the first word;
bits from `nbits` up are 0. -/
def tableWords (nbits w n : Nat) : List Word :=
  (List.range n).map fun k => BitVec.ofNat 32 ((w % 2 ^ nbits) >>> (32 * k))

/-- The command word of `tableWords` and the in-beats a port of variant `v` takes for it. -/
def tableFrame (v : Variant) (nbits w : Nat) : List Word :=
  let cw := BitVec.ofNat 32 (w % 2 ^ nbits)
  tableWords nbits w (1 + frameBeats v cw)

/-- The command the decoder of `State.reset`'s first instance (X128SS) reads from a row's bits. -/
def decodeTableWord (nbits w : Nat) : Option Instr :=
  match decode .X128SS (tableFrame .X128SS nbits w) with
  | .cmd i _ => some i
  | _ => none

end Sys2Proof
end

