-- ==== Sys2Proof/Machine/State.lean ====
section
/-! DEFINITION. The state of an XCORE: its instances with the architectural state of spec 10_state.md R20-R25 and the
words on their command ports (30_encoding.md R70), the current instance, the pending inputs of host and platform, the reset
state (R35, 70_reset_and_hazards.md R270), and the reasons a step can stop. -/

namespace Sys2Proof.Machine

/-- The four 32-bit words S[0..3] of an xoshiro128 instance (10_state.md R21). -/
structure X128 where
  s0 : Word
  s1 : Word
  s2 : Word
  s3 : Word
  deriving DecidableEq, Repr

/-- The two 64-bit words S[0..1] of an xoroshiro128 instance (10_state.md R21). -/
structure XR128 where
  s0 : Word64
  s1 : Word64
  deriving DecidableEq, Repr

/-- What the state register holds (10_state.md R21, R22): the words of the variant, or ⊥, the "no value" the spec gives it
at reset (R35) and after a rejected zero seed (44_engine_commands.md R166), held as 93_implementation_defined.md U1 asks
(assumption log 3). -/
inductive StateReg where
  /-- ⊥ -/
  | bot
  /-- SM64: S[0]. -/
  | sm64 (s0 : Word64)
  /-- X128SS and X128P: S[0..3]. -/
  | x128 (s : X128)
  /-- XR128SS and XR128P: S[0..1]. -/
  | xr128 (s : XR128)
  /-- X128SS_V: the vector register VS. -/
  | vec (vs : BitVec 128)
  deriving DecidableEq, Repr

/-- LIFE (10_state.md R23); the encoding 3 is never held (93_implementation_defined.md U3). -/
inductive Life where
  | UNSEEDED
  | SEEDED
  | ADVANCING
  deriving DecidableEq, Repr

/-- The errors a command can end with (30_encoding.md R77, 60_exceptions.md R241-R245). -/
inductive Err where
  | ZERO_SEED
  | UNSEEDED
  | ILLEGAL
  | UNSUPPORTED
  deriving DecidableEq, Repr

/-- RESP of a response word (30_encoding.md R77). -/
inductive Resp where
  | OK
  | error (e : Err)
  deriving DecidableEq, Repr

/-- An output word of the native width (00_scope.md R11 "Output word"). -/
inductive OutWord where
  | w32 (o : Word)
  | w64 (o : Word64)
  deriving DecidableEq, Repr

/-- One instance (10_state.md R20) with its command port (30_encoding.md R70). -/
structure Instance where
  /-- The build parameters; no step writes them (00_scope.md R6, R7). -/
  build : Build
  /-- S, or VS (10_state.md R21, R22). -/
  S : StateReg
  /-- 10_state.md R23. -/
  LIFE : Life
  /-- 10_state.md R25. -/
  ZSF : Bool
  /-- Words the host has driven on the port that no transaction has consumed yet, oldest first (70_reset_and_hazards.md
  R274, R283). -/
  rx : List Word
  /-- Response words the host has not taken yet, oldest first (30_encoding.md R70, R77, R78). -/
  tx : List Word
  deriving DecidableEq, Repr

/-- What reaches the machine from outside (70_reset_and_hazards.md R270, R281-R283; assumption log 5). -/
inductive HostInput where
  /-- The host drives the 32-bit word `w` on the port of instance `e`. -/
  | send (e : Nat) (w : Word)
  /-- The host takes the oldest response word of instance `e`. -/
  | take (e : Nat)
  /-- The platform asserts reset. -/
  | reset
  deriving DecidableEq, Repr

/-- One XCORE. -/
structure State where
  /-- The NUM_ENGINES instances (00_scope.md R7, 60_exceptions.md R254). -/
  engines : List Instance
  /-- The index of the current instance (00_scope.md R9), the one whose command is carried out; the model's own field
  (assumption log 4). -/
  cur : Nat
  /-- What host and platform do next, oldest first; the model's own field (assumption log 5). -/
  inputs : List HostInput
  deriving DecidableEq, Repr

/-- Why the machine stops with a fault. -/
inductive Fault where
  /-- Raised by a host input, or by a command, for an index at which the XCORE has no instance (60_exceptions.md R254);
  safe: the spec gives such an access no meaning (assumption log 9). -/
  | noSuchInstance
  deriving DecidableEq, Repr

/-- Why the model gives a step no meaning. -/
inductive Refusal where
  /-- Raised by exec's arm of a command that has no meaning yet; safe. No arm raises it. -/
  | notModelled (mnemonic : String)
  /-- Raised by NEXT_U32, NEXT_U64, FILL, JUMP and STATE_READ when LIFE ≠ UNSEEDED and S holds ⊥ or words of another
  variant, which no reachable state does (93_implementation_defined.md U1 "a model step that reads it is `refuse`"); safe
  (assumption log 3). -/
  | bottomRead
  /-- Raised by a SEED term whose beats are not SEED_BYTES/4 in number, which no port delivers (70_reset_and_hazards.md
  R283, 93_implementation_defined.md U17); safe (assumption log 11). -/
  | misframedSeed
  deriving DecidableEq, Repr

/-- The reset values of an instance (10_state.md R35); its port expects a command word (70_reset_and_hazards.md R271). -/
def Instance.reset (b : Build) : Instance :=
  { build := b, S := .bot, LIFE := .UNSEEDED, ZSF := false, rx := [], tx := [] }

/-- Right after reset, for any choice of NUM_ENGINES, VARIANT[e] and HAS_LANE_BLEND (70_reset_and_hazards.md R270). -/
def State.resetOf (builds : List Build) : State :=
  { engines := builds.map Instance.reset, cur := 0, inputs := [] }

/-- Right after reset, in the configuration of assumption log 1. -/
def State.reset : State := State.resetOf Config.builds

end Sys2Proof.Machine
end

