-- ==== Sys2Proof/Machine/Operands.lean ====
section
/-! DEFINITION. The operators of spec 00_scope.md R9, the byte order of 20_memory.md R52-R54, and the decoding of SEED's
in-beats into state words (30_encoding.md R76) and back (44_engine_commands.md R190). -/

namespace Sys2Proof.Machine

/-- shl_w(x, k) (00_scope.md R9). -/
def shl {w : Nat} (x : BitVec w) (k : Nat) : BitVec w := x <<< k

/-- shr_w(x, k) (00_scope.md R9). -/
def shr {w : Nat} (x : BitVec w) (k : Nat) : BitVec w := x >>> k

/-- rotl_w(x, k) for 0 < k < w (00_scope.md R9). -/
def rotl {w : Nat} (x : BitVec w) (k : Nat) : BitVec w := shl x k ||| shr x (w - k)

/-- LE_bytes_w(v) (00_scope.md R9). -/
def leBytes {w : Nat} (v : BitVec w) : List Byte := (List.range (w / 8)).map fun j => v.extractLsb' (8 * j) 8

/-- LE_word_w(b_0 …) (00_scope.md R9); bytes that are not there count as 0. -/
def leWord (w : Nat) : List Byte → BitVec w
  | [] => 0
  | b :: bs => b.setWidth w ||| (leWord w bs <<< 8)

/-- The byte sequence that travels in 32-bit beats (20_memory.md R54). -/
def beatBytes (beats : List Word) : List Byte := beats.flatMap leBytes

/-- A byte sequence packed into 32-bit beats, the bytes past the end of the last beat 0 (20_memory.md R54, 30_encoding.md
R78). -/
def packBeats : List Byte → List Word
  | [] => []
  | [b0] => [leWord 32 [b0]]
  | [b0, b1] => [leWord 32 [b0, b1]]
  | [b0, b1, b2] => [leWord 32 [b0, b1, b2]]
  | b0 :: b1 :: b2 :: b3 :: rest => leWord 32 [b0, b1, b2, b3] :: packBeats rest

/-- A 64-bit value as two beats, low half first (20_memory.md R54). -/
def beats64 (v : Word64) : List Word := [low32 v, high32 v]

/-- State word i of w bits from a seed's bytes: LE_word_w(b_{i·w/8} … b_{i·w/8 + w/8 - 1}) (20_memory.md R52). -/
def seedWord (w : Nat) (bytes : List Byte) (i : Nat) : BitVec w :=
  leWord w ((bytes.drop (i * (w / 8))).take (w / 8))

/-- Lane i of a vector register: VS[32i+31:32i] (10_state.md R22). -/
def lane (vs : BitVec 128) (i : Nat) : Word := vs.extractLsb' (32 * i) 32

/-- The vector register with the given lanes, lane 0 in the least significant bits (10_state.md R22). -/
def ofLanes (l0 l1 l2 l3 : Word) : BitVec 128 :=
  place 128 0 l0 ||| place 128 32 l1 ||| place 128 64 l2 ||| place 128 96 l3

/-- The lanes of VS as the scalar words S[0..3] (10_state.md R22). -/
def lanesOf (vs : BitVec 128) : X128 := ⟨lane vs 0, lane vs 1, lane vs 2, lane vs 3⟩

/-- The scalar words S[0..3] as the lanes of VS (10_state.md R22). -/
def toLanes (s : X128) : BitVec 128 := ofLanes s.s0 s.s1 s.s2 s.s3

/-- The words T[0..n-1] that SEED decodes from its bytes (20_memory.md R52, 44_engine_commands.md R165). -/
def seedState (v : Variant) (bytes : List Byte) : StateReg :=
  match v with
  | .SM64 => .sm64 (seedWord 64 bytes 0)
  | .X128SS | .X128P => .x128 ⟨seedWord 32 bytes 0, seedWord 32 bytes 1, seedWord 32 bytes 2, seedWord 32 bytes 3⟩
  | .XR128SS | .XR128P => .xr128 ⟨seedWord 64 bytes 0, seedWord 64 bytes 1⟩
  | .X128SS_V =>
    .vec (ofLanes (seedWord 32 bytes 0) (seedWord 32 bytes 1) (seedWord 32 bytes 2) (seedWord 32 bytes 3))

/-- The state words SEED's in-beats stand for, if they are SEED_BYTES/4 in number (30_encoding.md R75, R76). -/
def decodeSeed (v : Variant) (beats : List Word) : Option StateReg :=
  if beats.length = v.seedBytes / 4 then some (seedState v (beatBytes beats)) else none

/-- S in seed format: LE_bytes_w(S[0]) ++ … ++ LE_bytes_w(S[n-1]); none if S holds ⊥ or words of another variant
(44_engine_commands.md R190). -/
def stateBytes (v : Variant) (S : StateReg) : Option (List Byte) :=
  match v, S with
  | .SM64, .sm64 s0 => some (leBytes s0)
  | .X128SS, .x128 s | .X128P, .x128 s => some (leBytes s.s0 ++ leBytes s.s1 ++ leBytes s.s2 ++ leBytes s.s3)
  | .XR128SS, .xr128 s | .XR128P, .xr128 s => some (leBytes s.s0 ++ leBytes s.s1)
  | .X128SS_V, .vec vs => some (leBytes (lane vs 0) ++ leBytes (lane vs 1) ++ leBytes (lane vs 2) ++ leBytes (lane vs 3))
  | _, _ => none

/-- The bytes of a native output word (20_memory.md R53). -/
def outBytes : OutWord → List Byte
  | .w32 o => leBytes o
  | .w64 o => leBytes o

end Sys2Proof.Machine
end

