-- ==== Sys2Proof/Machine/Flags.lean ====
section
/-! DEFINITION. The read-only views STATUS and CAP (spec 10_state.md R26-R28) and the response word (30_encoding.md R77). -/

namespace Sys2Proof.Machine

/-- The encoding of LIFE (10_state.md R23). -/
def Life.code : Life → BitVec 2
  | .UNSEEDED => 0
  | .SEEDED => 1
  | .ADVANCING => 2

/-- STATUS: LIFE in [1:0], ZSF in [2], 0 above (10_state.md R26, 44_engine_commands.md R193). -/
def statusWord (life : Life) (zsf : Bool) : Word :=
  place 32 0 life.code ||| place 32 2 (BitVec.ofBool zsf)

/-- CAP, field by field: VARIANT [3:0], NATIVE64 [4], HAS_JUMP [5], VEC [6], VEC_OK [7], STATE_LEN [11:8], SEED_BYTES
[19:12], 0 above (10_state.md R27). -/
def capWord (b : Build) : Word :=
  place 32 0 b.variant.code ||| place 32 4 (BitVec.ofBool (b.variant.width == 64))
    ||| place 32 5 (BitVec.ofBool b.variant.hasJump) ||| place 32 6 (BitVec.ofBool b.variant.isVector)
    ||| place 32 7 (BitVec.ofBool b.vecOk) ||| place 32 8 (BitVec.ofNat 4 b.variant.stateLen)
    ||| place 32 12 (BitVec.ofNat 8 b.variant.seedBytes)

/-- The response codes (30_encoding.md R77). -/
def Resp.code : Resp → BitVec 4
  | .OK => 0x0
  | .error .ZERO_SEED => 0x1
  | .error .UNSEEDED => 0x2
  | .error .ILLEGAL => 0x3
  | .error .UNSUPPORTED => 0x4

/-- RW: RESP in [3:0], 0 above (30_encoding.md R77). -/
def responseWord (r : Resp) : Word := place 32 0 r.code

/-- Supported(V, OPC) (44_engine_commands.md R161). -/
def supported (b : Build) : Opcode → Bool
  | .SEED | .NEXT_U32 | .STATE_READ => !b.variant.isVector || b.hasLaneBlend
  | .SEED_U64 | .NEXT_U64 | .FILL => !b.variant.isVector
  | .JUMP => b.variant.hasJump
  | .READ_STATUS | .READ_CAP => true

/-- NeedsSeed(OPC) (44_engine_commands.md R162). -/
def needsSeed : Opcode → Bool
  | .NEXT_U32 | .NEXT_U64 | .FILL | .JUMP | .STATE_READ => true
  | .SEED | .SEED_U64 | .READ_STATUS | .READ_CAP => false

end Sys2Proof.Machine
end

