-- ==== Sys2Proof/Machine/Ops.lean ====
section
/-! DEFINITION. The named operations every command is built from: responding, raising an error (the one operation by which
this hardware takes an exception, spec 60_exceptions.md R240-R249), the common checks (44_engine_commands.md R160), and
carrying an instance's command out on the current instance of the XCORE (00_scope.md R12). -/

namespace Sys2Proof.Machine

/-- How a command ends on its own instance. -/
abbrev Ending := Host.Outcome Instance Fault Refusal

/-- `respond OK` with the given out-beats: RW, then the out-beats (30_encoding.md R70, R78). -/
def Instance.respond (x : Instance) (outBeats : List Word) : Instance :=
  { x with tx := x.tx ++ responseWord .OK :: outBeats }

/-- `raise E()`: RW with the error's code and no out-beats; the state stays as it is, except that ERR_ZERO_SEED discards S,
unseeds the instance and sets ZSF (60_exceptions.md R240, R241, R248; 44_engine_commands.md R166). There is no return from
an error: the instance goes on with the next command (R249). -/
def Instance.raise (x : Instance) (e : Err) : Instance :=
  match e with
  | .ZERO_SEED =>
    { x with S := .bot, LIFE := .UNSEEDED, ZSF := true, tx := x.tx ++ [responseWord (.error .ZERO_SEED)] }
  | .UNSEEDED => { x with tx := x.tx ++ [responseWord (.error .UNSEEDED)] }
  | .ILLEGAL => { x with tx := x.tx ++ [responseWord (.error .ILLEGAL)] }
  | .UNSUPPORTED => { x with tx := x.tx ++ [responseWord (.error .UNSUPPORTED)] }

/-- The checks of a legal command word, in their order (44_engine_commands.md R160, 60_exceptions.md R247). -/
def failedCheck (o : Opcode) (x : Instance) : Option Err :=
  if supported x.build o = false then some .UNSUPPORTED
  else if needsSeed o = true ∧ x.LIFE = .UNSEEDED then some .UNSEEDED
  else none

/-- A command: the common checks, then its own rule (44_engine_commands.md R160). -/
def command (o : Opcode) (rule : Instance → Ending) (x : Instance) : Ending :=
  match failedCheck o x with
  | some e => .next (x.raise e)
  | none => rule x

/-- The current instance (00_scope.md R9). -/
def State.current (s : State) : Option Instance := s.engines[s.cur]?

/-- The XCORE with its current instance replaced. -/
def State.setCurrent (s : State) (x : Instance) : State := { s with engines := s.engines.set s.cur x }

/-- Carries a command out on the current instance; no other instance takes part in it (00_scope.md R12). -/
def onCurrent (s : State) (f : Instance → Ending) : Host.Outcome State Fault Refusal :=
  match s.current with
  | none => .fault .noSuchInstance
  | some x =>
    match f x with
    | .next x' => .next (s.setCurrent x')
    | .fault r => .fault r
    | .refused r => .refused r

end Sys2Proof.Machine
end

