-- ==== Sys2Proof/Machine/Access.lean ====
section
/-! DEFINITION. The read-back commands STATE_READ, READ_STATUS and READ_CAP (spec 44_engine_commands.md R190-R195). -/

namespace Sys2Proof.Machine

/-- The rule of STATE_READ (44_engine_commands.md R190). -/
def stateReadRule (x : Instance) : Ending :=
  match stateBytes x.build.variant x.S with
  | none => .refused .bottomRead
  | some bytes => .next (x.respond (packBeats bytes))

/-- The rule of READ_STATUS (44_engine_commands.md R193). -/
def readStatusRule (x : Instance) : Ending := .next (x.respond [statusWord x.LIFE x.ZSF])

/-- The rule of READ_CAP (44_engine_commands.md R195). -/
def readCapRule (x : Instance) : Ending := .next (x.respond [capWord x.build])

/-- STATE_READ (44_engine_commands.md R190). -/
def execStateRead (s : State) : Host.Outcome State Fault Refusal := onCurrent s (command .STATE_READ stateReadRule)

/-- READ_STATUS (44_engine_commands.md R193). -/
def execReadStatus (s : State) : Host.Outcome State Fault Refusal := onCurrent s (command .READ_STATUS readStatusRule)

/-- READ_CAP (44_engine_commands.md R195). -/
def execReadCap (s : State) : Host.Outcome State Fault Refusal := onCurrent s (command .READ_CAP readCapRule)

end Sys2Proof.Machine
end

