-- ==== Sys2Proof/Machine/Kernels.lean ====
section
/-! DEFINITION. The pure functions of the generators: SplitMix64 (spec 41_splitmix64.md), the scramblers
(42_scramblers.md), the transition kernels (43_kernels.md), the lane schedule of the vector unit (46_simd.md R221), and the
native step put together from them (43_kernels.md R146). -/

namespace Sys2Proof.Machine

/-- 41_splitmix64.md R100. -/
def GAMMA : Word64 := 0x9e3779b97f4a7c15

/-- 41_splitmix64.md R100. -/
def MIX1 : Word64 := 0xbf58476d1ce4e5b9

/-- 41_splitmix64.md R100. -/
def MIX2 : Word64 := 0x94d049bb133111eb

/-- The SplitMix64 output function; shift counts 30, 27, 31 (41_splitmix64.md R100, R101). -/
def mix (z : Word64) : Word64 :=
  let z := (z ^^^ shr z 30) * MIX1
  let z := (z ^^^ shr z 27) * MIX2
  z ^^^ shr z 31

/-- One SplitMix64 step: the advanced counter and the output (41_splitmix64.md R102). -/
def sm64Next (t : Word64) : Word64 × Word64 :=
  let t' := t + GAMMA
  (t', mix t')

/-- The outputs of k SplitMix64 steps from counter t (41_splitmix64.md R104). -/
def sm64Outputs : Nat → Word64 → List Word64
  | 0, _ => []
  | k + 1, t =>
    let (t', o) := sm64Next t
    o :: sm64Outputs k t'

/-- Expand(v, 4, 32): the low 32 bits of one output per word (41_splitmix64.md R104). -/
def expandX128 (v : Word64) : X128 :=
  match sm64Outputs 4 v with
  | [o0, o1, o2, o3] => ⟨low32 o0, low32 o1, low32 o2, low32 o3⟩
  | _ => ⟨0, 0, 0, 0⟩

/-- Expand(v, 2, 64): one whole output per word (41_splitmix64.md R104). -/
def expandXR128 (v : Word64) : XR128 :=
  match sm64Outputs 2 v with
  | [o0, o1] => ⟨o0, o1⟩
  | _ => ⟨0, 0⟩

/-- The StarStar scrambler; the constants of the spec's choice in 90_conflicts.md C1 (42_scramblers.md R120). -/
def starstar {w : Nat} (x : BitVec w) : BitVec w := rotl (x * 5#w) 7 * 9#w

/-- The xoshiro128 transition, statement by statement (43_kernels.md R140). -/
def stepX128 (S : X128) : X128 :=
  let t := shl S.s1 9
  let s2 := S.s2 ^^^ S.s0
  let s3 := S.s3 ^^^ S.s1
  let s1 := S.s1 ^^^ s2
  let s0 := S.s0 ^^^ s3
  let s2 := s2 ^^^ t
  let s3 := rotl s3 11
  ⟨s0, s1, s2, s3⟩

/-- The xoroshiro128 transition, statement by statement (43_kernels.md R144). -/
def stepXR128 (S : XR128) : XR128 :=
  let s0 := S.s0
  let s1 := S.s1
  let s1 := s1 ^^^ s0
  let s0 := rotl s0 24 ^^^ s1 ^^^ shl s1 16
  let s1 := rotl s1 37
  ⟨s0, s1⟩

/-- shuffle(V, (p0, p1, p2, p3)): lane i of the result is lane p_i of V (46_simd.md R221). -/
def shuffle (vs : BitVec 128) (p0 p1 p2 p3 : Nat) : BitVec 128 :=
  ofLanes (lane vs p0) (lane vs p1) (lane vs p2) (lane vs p3)

/-- An operation applied lane by lane (46_simd.md R221). -/
def mapLanes (f : Word → Word) (vs : BitVec 128) : BitVec 128 :=
  ofLanes (f (lane vs 0)) (f (lane vs 1)) (f (lane vs 2)) (f (lane vs 3))

/-- blend(A, B, m): lane i of the result is lane i of B if bit i of m is 1, else lane i of A (46_simd.md R221). -/
def blend (a b : BitVec 128) (m : BitVec 4) : BitVec 128 :=
  let pick := fun i => if m.getLsbD i then lane b i else lane a i
  ofLanes (pick 0) (pick 1) (pick 2) (pick 3)

/-- The lane schedule of the vector step (46_simd.md R221; assumption log 13). -/
def stepV (vs : BitVec 128) : BitVec 128 :=
  let x := vs ^^^ shuffle vs 2 3 0 1
  let y01 := vs ^^^ shuffle x 1 0 3 2
  let y2 := x ^^^ mapLanes (shl · 9) (shuffle vs 1 1 1 1)
  let y3 := mapLanes (rotl · 11) x
  blend (blend y01 y2 0b0100) y3 0b1000

/-- Out(V, S), from the pre-transition state; none if S holds ⊥ or words of another variant (42_scramblers.md R125). -/
def outOf (v : Variant) (S : StateReg) : Option OutWord :=
  match v, S with
  | .SM64, .sm64 s0 => some (.w64 (mix (s0 + GAMMA)))
  | .X128SS, .x128 s => some (.w32 (starstar s.s0))
  | .X128P, .x128 s => some (.w32 (s.s0 + s.s3))
  | .XR128SS, .xr128 s => some (.w64 (starstar s.s0))
  | .XR128P, .xr128 s => some (.w64 (s.s0 + s.s1))
  | .X128SS_V, .vec vs => some (.w32 (starstar (lane vs 0)))
  | _, _ => none

/-- Step(V, S) (43_kernels.md R147). -/
def stepOf (v : Variant) (S : StateReg) : Option StateReg :=
  match v, S with
  | .SM64, .sm64 s0 => some (.sm64 (s0 + GAMMA))
  | .X128SS, .x128 s | .X128P, .x128 s => some (.x128 (stepX128 s))
  | .XR128SS, .xr128 s | .XR128P, .xr128 s => some (.xr128 (stepXR128 s))
  | .X128SS_V, .vec vs => some (.vec (stepV vs))
  | _, _ => none

/-- NativeStep(V, S): the output of the pre-transition state, then the transition (43_kernels.md R146). -/
def nativeStep (v : Variant) (S : StateReg) : Option (OutWord × StateReg) :=
  match outOf v S, stepOf v S with
  | some o, some S' => some (o, S')
  | _, _ => none

/-- The outputs of k native steps, in extraction order, and the state after them. -/
def extract (v : Variant) : Nat → StateReg → Option (List OutWord × StateReg)
  | 0, S => some ([], S)
  | k + 1, S =>
    match nativeStep v S with
    | none => none
    | some (o, S1) =>
      match extract v k S1 with
      | none => none
      | some (os, S2) => some (o :: os, S2)

/-- The xoshiro128 jump polynomial (45_jump.md R200). -/
def JUMP_X128 : List Word := [0x8764000b, 0xf542d2d3, 0x6fa035c3, 0x77f2db5b]

/-- The xoroshiro128 jump polynomial (45_jump.md R201). -/
def JUMP_XR128 : List Word64 := [0xdf900294d8f554a5, 0x170865df4b3201fc]

/-- The bits of a polynomial in increasing order of j: word by word, each from bit 0 (45_jump.md R202). -/
def polyBits {w : Nat} (p : List (BitVec w)) : List Bool := p.flatMap fun x => (List.range w).map x.getLsbD

/-- S ^ T, word by word. -/
def X128.xor (a b : X128) : X128 := ⟨a.s0 ^^^ b.s0, a.s1 ^^^ b.s1, a.s2 ^^^ b.s2, a.s3 ^^^ b.s3⟩

/-- S ^ T, word by word. -/
def XR128.xor (a b : XR128) : XR128 := ⟨a.s0 ^^^ b.s0, a.s1 ^^^ b.s1⟩

/-- The walk of JUMP over the bits of the polynomial on an xoshiro128 state: accumulator A, working state T (45_jump.md
R203). -/
def walkX128 : List Bool → X128 → X128 → X128
  | [], A, _ => A
  | c :: cs, A, T => walkX128 cs (if c then A.xor T else A) (stepX128 T)

/-- The walk of JUMP over the bits of the polynomial on an xoroshiro128 state (45_jump.md R203). -/
def walkXR128 : List Bool → XR128 → XR128 → XR128
  | [], A, _ => A
  | c :: cs, A, T => walkXR128 cs (if c then A.xor T else A) (stepXR128 T)

/-- JUMP's new state on the variants that have JUMP; none if S holds ⊥ or words of another variant (45_jump.md R203). -/
def jumpOf (v : Variant) (S : StateReg) : Option StateReg :=
  match v, S with
  | .X128SS, .x128 s | .X128P, .x128 s => some (.x128 (walkX128 (polyBits JUMP_X128) ⟨0, 0, 0, 0⟩ s))
  | .XR128SS, .xr128 s | .XR128P, .xr128 s => some (.xr128 (walkXR128 (polyBits JUMP_XR128) ⟨0, 0⟩ s))
  | _, _ => none

end Sys2Proof.Machine
end

