-- ==== Sys2Proof/Machine/Extraction.lean ====
section
/-! DEFINITION. The commands that advance the stream: NEXT_U32, NEXT_U64 and FILL (spec 44_engine_commands.md R175-R187)
and JUMP (45_jump.md R203). -/

namespace Sys2Proof.Machine

/-- Advancing: S replaced, LIFE ADVANCING, the out-beats sent (10_state.md R24). -/
def Instance.advance (x : Instance) (S' : StateReg) (outBeats : List Word) : Instance :=
  ({ x with S := S', LIFE := .ADVANCING }).respond outBeats

/-- The 32 bits of a native output that NEXT_U32 returns: all of a 32-bit one, the low half on SM64, the high half on
XR128SS and XR128P (44_engine_commands.md R175, R176). -/
def narrow (v : Variant) : OutWord → Word
  | .w32 o => o
  | .w64 o => if v = .SM64 then low32 o else high32 o

/-- The 64 bits NEXT_U64 returns from the native outputs it took: one 64-bit output, or two 32-bit ones with the first in
the low half (44_engine_commands.md R180, R181). -/
def widen : List OutWord → Option Word64
  | [.w64 o] => some o
  | [.w32 lo, .w32 hi] => some (concat hi lo)
  | _ => none

/-- How many native steps NEXT_U64 takes (44_engine_commands.md R180). -/
def steps64 (v : Variant) : Nat := 64 / v.width

/-- How many native steps FILL takes: ceil(LEN/(w/8)) (44_engine_commands.md R185). -/
def fillSteps (v : Variant) (len : Nat) : Nat := (len + (v.width / 8 - 1)) / (v.width / 8)

/-- FILL's bytes: the native outputs little-endian in extraction order, the excess of the last one discarded
(44_engine_commands.md R185, R186). -/
def fillBytes (os : List OutWord) (len : Nat) : List Byte := (os.flatMap outBytes).take len

/-- The rule of NEXT_U32 (44_engine_commands.md R175; 46_simd.md R224). -/
def nextU32Rule (x : Instance) : Ending :=
  match nativeStep x.build.variant x.S with
  | none => .refused .bottomRead
  | some (o, S') => .next (x.advance S' [narrow x.build.variant o])

/-- The rule of NEXT_U64 (44_engine_commands.md R180). -/
def nextU64Rule (x : Instance) : Ending :=
  match extract x.build.variant (steps64 x.build.variant) x.S with
  | none => .refused .bottomRead
  | some (os, S') =>
    match widen os with
    | none => .refused .bottomRead
    | some r => .next (x.advance S' (beats64 r))

/-- The rule of FILL; LEN = 0 takes no step and leaves S and LIFE (44_engine_commands.md R185). -/
def fillRule (len : BitVec 24) (x : Instance) : Ending :=
  match extract x.build.variant (fillSteps x.build.variant len.toNat) x.S with
  | none => .refused .bottomRead
  | some (os, S') =>
    if len = 0#24 then .next (x.respond [])
    else .next (x.advance S' (packBeats (fillBytes os len.toNat)))

/-- The rule of JUMP (45_jump.md R203). -/
def jumpRule (x : Instance) : Ending :=
  match jumpOf x.build.variant x.S with
  | none => .refused .bottomRead
  | some S' => .next (x.advance S' [])

/-- NEXT_U32 (44_engine_commands.md R175). -/
def execNextU32 (s : State) : Host.Outcome State Fault Refusal := onCurrent s (command .NEXT_U32 nextU32Rule)

/-- NEXT_U64 (44_engine_commands.md R180). -/
def execNextU64 (s : State) : Host.Outcome State Fault Refusal := onCurrent s (command .NEXT_U64 nextU64Rule)

/-- FILL (44_engine_commands.md R185). -/
def execFill (len : BitVec 24) (s : State) : Host.Outcome State Fault Refusal :=
  onCurrent s (command .FILL (fillRule len))

/-- JUMP (45_jump.md R203). -/
def execJump (s : State) : Host.Outcome State Fault Refusal := onCurrent s (command .JUMP jumpRule)

end Sys2Proof.Machine
end

