-- ==== Sys2Proof/Machine/Seeding.lean ====
section
/-! DEFINITION. The seeding commands SEED and SEED_U64 (spec 44_engine_commands.md R165-R171). -/

namespace Sys2Proof.Machine

/-- Accepting a seed: S replaced, LIFE SEEDED, ZSF not cleared (44_engine_commands.md R165, R168, R170). -/
def Instance.accept (x : Instance) (T : StateReg) : Instance :=
  ({ x with S := T, LIFE := .SEEDED }).respond []

/-- The zero test: only on XR128SS and XR128P, on the decoded state (44_engine_commands.md R166, R167). -/
def zeroSeed (v : Variant) (T : StateReg) : Bool := v.isXoroshiro && T == .xr128 ⟨0, 0⟩

/-- The rule of SEED (44_engine_commands.md R165, R166). -/
def seedRule (beats : List Word) (x : Instance) : Ending :=
  match decodeSeed x.build.variant beats with
  | none => .refused .misframedSeed
  | some T => if zeroSeed x.build.variant T then .next (x.raise .ZERO_SEED) else .next (x.accept T)

/-- The state SEED_U64 installs: the counter itself on SM64 (44_engine_commands.md R171), the SplitMix64 expansion
elsewhere (R170; 41_splitmix64.md R104). -/
def seedU64State (variant : Variant) (v : Word64) : StateReg :=
  match variant with
  | .SM64 => .sm64 v
  | .X128SS | .X128P => .x128 (expandX128 v)
  | .XR128SS | .XR128P => .xr128 (expandXR128 v)
  | .X128SS_V => .vec (toLanes (expandX128 v))

/-- The rule of SEED_U64 (44_engine_commands.md R170). -/
def seedU64Rule (v : Word64) (x : Instance) : Ending := .next (x.accept (seedU64State x.build.variant v))

/-- SEED (44_engine_commands.md R165). -/
def execSeed (beats : List Word) (s : State) : Host.Outcome State Fault Refusal :=
  onCurrent s (command .SEED (seedRule beats))

/-- SEED_U64 (44_engine_commands.md R170). -/
def execSeedU64 (v : Word64) (s : State) : Host.Outcome State Fault Refusal :=
  onCurrent s (command .SEED_U64 (seedU64Rule v))

end Sys2Proof.Machine
end

