-- ==== Sys2Proof/Machine/Dispatch.lean ====
section
/-! DEFINITION. One arm per command (spec/opcode_table.json). -/

namespace Sys2Proof.Machine

def exec (i : Instr) (s : State) : Host.Outcome State Fault Refusal :=
  match i with
  | .seed beats => Sys2Proof.Machine.execSeed beats s
  | .seedU64 v => Sys2Proof.Machine.execSeedU64 v s
  | .nextU32 => Sys2Proof.Machine.execNextU32 s
  | .nextU64 => Sys2Proof.Machine.execNextU64 s
  | .fill len => Sys2Proof.Machine.execFill len s
  | .jump => Sys2Proof.Machine.execJump s
  | .stateRead => Sys2Proof.Machine.execStateRead s
  | .readStatus => Sys2Proof.Machine.execReadStatus s
  | .readCap => Sys2Proof.Machine.execReadCap s

end Sys2Proof.Machine
end

