-- ==== Sys2Proof/Machine/Port.lean ====
section
/-! DEFINITION. The command ports and what reaches the machine from outside: when a transaction can be carried out (spec
30_encoding.md R70, 70_reset_and_hazards.md R274, R283), carrying it out, the host's sends and takes, and reset (R270,
R271). -/

namespace Sys2Proof.Machine

/-- The instance can carry out a transaction: the whole previous response has been taken (70_reset_and_hazards.md R274),
and a command word with all its in-beats has arrived (R283; assumption log 6). -/
def Instance.ready (x : Instance) : Bool := x.tx.isEmpty && decode x.build.variant x.rx != .wait

/-- The lowest index, counted from `at`, of an instance that is ready (20_memory.md R60; assumption log 4). -/
def firstReady : Nat → List Instance → Option Nat
  | _, [] => none
  | e, x :: xs => if x.ready then some e else firstReady (e + 1) xs

/-- Instance `e` becomes the current one and its port is left with the words after the transaction. -/
def State.serve (s : State) (e : Nat) (x : Instance) (rest : List Word) : State :=
  { s with cur := e, engines := s.engines.set e { x with rx := rest } }

/-- One transaction of instance `e` as one atomic step (20_memory.md R57): a legal command is carried out, an illegal command
word is answered with ERR_ILLEGAL (60_exceptions.md R243). -/
def transact (s : State) (e : Nat) : Host.Outcome State Fault Refusal :=
  match s.engines[e]? with
  | none => .fault .noSuchInstance
  | some x =>
    match decode x.build.variant x.rx with
    | .wait => .next s
    | .cmd i rest => exec i (s.serve e x rest)
    | .reject _ rest => onCurrent (s.serve e x rest) fun y => .next (y.raise .ILLEGAL)

/-- A change of the port of instance `e` by the host (assumption log 9). -/
def onPort (s : State) (e : Nat) (f : Instance → Instance) : Host.Outcome State Fault Refusal :=
  match s.engines[e]? with
  | none => .fault .noSuchInstance
  | some x => .next { s with engines := s.engines.set e (f x) }

/-- Reset: every instance takes its reset values, whatever it was doing (70_reset_and_hazards.md R270, R271). -/
def State.applyReset (s : State) : State := State.resetOf (s.engines.map Instance.build)

/-- What an input of the host or the platform does (70_reset_and_hazards.md R270, R281-R283). Taking from a port with no
response word does nothing (assumption log 10). -/
def applyInput (s : State) : HostInput → Host.Outcome State Fault Refusal
  | .send e w => onPort s e fun x => { x with rx := x.rx ++ [w] }
  | .take e => onPort s e fun x => { x with tx := x.tx.tail }
  | .reset => .next { s.applyReset with inputs := s.inputs }

/-- One step of the machine: a reset that stands first in `inputs` comes before everything (assumption log 7); else the first
ready instance carries out its transaction (assumption log 4); else the next input takes place; with none, nothing happens
(70_reset_and_hazards.md R283, 60_exceptions.md R256; assumption log 8). -/
def stepState (s : State) : Host.Outcome State Fault Refusal :=
  match s.inputs with
  | .reset :: rest => applyInput { s with inputs := rest } .reset
  | inputs =>
    match firstReady 0 s.engines with
    | some e => transact s e
    | none =>
      match inputs with
      | [] => .next s
      | h :: rest => applyInput { s with inputs := rest } h

/-- The words of an opcode table row on the port of the first instance, its previous response taken and no reset pending, so
that the next step is its transaction (assumption log 5). -/
def placeTransaction (s : State) (nbits w : Nat) : State :=
  match s.engines with
  | [] => s
  | x :: xs =>
    { s with
      engines := { x with rx := tableFrame x.build.variant nbits w, tx := [] } :: xs
      inputs := s.inputs.dropWhile (· == .reset) }

end Sys2Proof.Machine
end

