-- ==== Sys2Proof/Machine/Step.lean ====
section
/-! DEFINITION. One step of the machine, and how a transaction is placed where the next step takes it. -/

namespace Sys2Proof.Machine

/-- One step: a transaction, or an input from outside (`stepState`). -/
def step (s : State) : Host.Outcome State Fault Refusal := stepState s

/-- The instruction of `nbits` bits `w` placed so that the next step runs it (`placeTransaction`). -/
def State.withFetchWord (s : State) (nbits w : Nat) : State := placeTransaction s nbits w

end Sys2Proof.Machine
end

