-- ==== Sys2Proof/Safety.lean ====
section
/-! DEFINITION. The terms claims are stated in: the invariant of a legal state, sequences of commands, and the native stream
of a state. -/

namespace Sys2Proof.Machine

/-- The register holds the words of variant `v` (spec 10_state.md R21, R22). -/
def StateReg.fits (v : Variant) : StateReg → Bool
  | .bot => false
  | .sm64 _ => v == .SM64
  | .x128 _ => v == .X128SS || v == .X128P
  | .xr128 _ => v == .XR128SS || v == .XR128P
  | .vec _ => v == .X128SS_V

/-- What holds of an instance in every state a run reaches: S is ⊥ exactly while LIFE = UNSEEDED (10_state.md R35, U1) and
else holds the variant's words (R21); ZSF is set only on the two-word variants (R25); their S is never all-zero (R32); the
vector unit without the lane blend is never seeded (46_simd.md R222). -/
abbrev Instance.Inv (x : Instance) : Prop :=
  (x.S = .bot ↔ x.LIFE = .UNSEEDED) ∧
  (x.S ≠ .bot → x.S.fits x.build.variant = true) ∧
  (x.ZSF = true → x.build.variant.isXoroshiro = true) ∧
  (x.build.variant.isXoroshiro = true → x.S ≠ .xr128 ⟨0, 0⟩) ∧
  (x.build.variant.isVector = true → x.build.hasLaneBlend = false → x.LIFE = .UNSEEDED)

/-- Every instance is in a legal state, and the current instance exists. -/
abbrev State.Inv (s : State) : Prop := s.cur < s.engines.length ∧ ∀ x ∈ s.engines, x.Inv

/-- A sequence of commands on the current instance. -/
def execAll : List Instr → State → Host.Outcome State Fault Refusal
  | [], s => .next s
  | i :: is, s =>
    match exec i s with
    | .next t => execAll is t
    | .fault r => .fault r
    | .refused r => .refused r

/-- The state after k transitions (43_kernels.md R147). -/
def stateAfter (v : Variant) : Nat → StateReg → Option StateReg
  | 0, S => some S
  | k + 1, S => (stepOf v S).bind (stateAfter v k)

/-- The output of native step number k, counted from 0 (43_kernels.md R146). -/
def outputAt (v : Variant) (k : Nat) (S : StateReg) : Option OutWord := (stateAfter v k S).bind (outOf v)

/-- Byte j of a sequence of beats (20_memory.md R54). -/
def beatByte (beats : List Word) (j : Nat) : Byte := (beats.getD (j / 4) 0).extractLsb' (8 * (j % 4)) 8

/-- Byte k of a native output word, the least significant byte first (20_memory.md R53). -/
def outByte (o : OutWord) (k : Nat) : Byte :=
  match o with
  | .w32 x => x.extractLsb' (8 * k) 8
  | .w64 x => x.extractLsb' (8 * k) 8

end Sys2Proof.Machine
end

