-- ==== Sys2Proof/Certificates/Slice0/Obligations.lean ====
section
/-! DEFINITION. The statements for the provers, from the numbered rules of spec/. The functions under `Claims` write the
spec's formulas a second time, with Lean's own operators, so that a statement does not repeat the model's definitions. -/

namespace Sys2Proof.Claims

/-- The xoshiro128 transition without in-place updates (43_kernels.md R141). -/
def nextX128 (S : Machine.X128) : Machine.X128 :=
  { s0 := S.s0 ^^^ S.s1 ^^^ S.s3
    s1 := S.s0 ^^^ S.s1 ^^^ S.s2
    s2 := S.s0 ^^^ S.s2 ^^^ (S.s1 <<< 9)
    s3 := (S.s1 ^^^ S.s3).rotateLeft 11 }

/-- The xoroshiro128 transition without in-place updates (43_kernels.md R144). -/
def nextXR128 (S : Machine.XR128) : Machine.XR128 :=
  { s0 := S.s0.rotateLeft 24 ^^^ (S.s0 ^^^ S.s1) ^^^ ((S.s0 ^^^ S.s1) <<< 16)
    s1 := (S.s0 ^^^ S.s1).rotateLeft 37 }

/-- StarStar: ×5, rotate left by 7, ×9 (42_scramblers.md R120). -/
def starStar {w : Nat} (x : BitVec w) : BitVec w := (x * BitVec.ofNat w 5).rotateLeft 7 * BitVec.ofNat w 9

/-- The output of X128SS or X128P (42_scramblers.md R121, R123). -/
def outX128 (v : Variant) (S : Machine.X128) : Word := if v = .X128P then S.s0 + S.s3 else starStar S.s0

/-- The output of XR128SS or XR128P (42_scramblers.md R122, R124). -/
def outXR128 (v : Variant) (S : Machine.XR128) : Word64 := if v = .XR128P then S.s0 + S.s1 else starStar S.s0

/-- SplitMix64's output for the advanced counter t (41_splitmix64.md R100, R101). -/
def splitMix (t : Word64) : Word64 :=
  let a := (t ^^^ (t >>> 30)) * 0xbf58476d1ce4e5b9#64
  let b := (a ^^^ (a >>> 27)) * 0x94d049bb133111eb#64
  b ^^^ (b >>> 31)

/-- SplitMix64's increment (41_splitmix64.md R100). -/
def gamma : Word64 := 0x9e3779b97f4a7c15#64

/-- The lower half of a 64-bit value. -/
def lowHalf (v : Word64) : Word := BitVec.ofNat 32 v.toNat

/-- The upper half of a 64-bit value. -/
def highHalf (v : Word64) : Word := BitVec.ofNat 32 (v.toNat / 2 ^ 32)

/-- hi · 2^32 + lo (00_scope.md R9). -/
def join (hi lo : Word) : Word64 := BitVec.ofNat 64 (hi.toNat * 2 ^ 32 + lo.toNat)

/-- The variants with the scalar xoshiro128 kernel. -/
abbrev isX128 (v : Variant) : Prop := v = .X128SS ∨ v = .X128P

/-- The variants with the xoroshiro128 kernel. -/
abbrev isXR128 (v : Variant) : Prop := v = .XR128SS ∨ v = .XR128P

/-- P_in by the number of the operation code (30_encoding.md R75). -/
def beatsIn (v : Variant) (cw : Word) : Nat :=
  if cw.toNat % 256 = 1 then (if v = .SM64 then 2 else 4) else if cw.toNat % 256 = 2 then 2 else 0

/-- A command word is illegal (60_exceptions.md R243). -/
abbrev illegal (cw : Word) : Prop :=
  cw.toNat % 256 = 0 ∨ 10 ≤ cw.toNat % 256 ∨ (cw.toNat % 256 ≠ 5 ∧ cw.toNat / 256 ≠ 0)

/-- The commands that 60_exceptions.md R244 lists as unsupported, by instance and operation code number. -/
abbrev unsupported (b : Build) (opc : Nat) : Prop :=
  (b.variant = .SM64 ∧ opc = 6) ∨
  (b.variant = .X128SS_V ∧ (opc = 2 ∨ opc = 4 ∨ opc = 5 ∨ opc = 6)) ∨
  (b.variant = .X128SS_V ∧ b.hasLaneBlend = false ∧ opc ≠ 8 ∧ opc ≠ 9)

/-- The commands that read S, by operation code number (44_engine_commands.md R162). -/
abbrev readsState (opc : Nat) : Prop := opc = 3 ∨ opc = 4 ∨ opc = 5 ∨ opc = 6 ∨ opc = 7

/-- The commands that need a seed (44_engine_commands.md R162). -/
def needsASeed (i : Instr) : Prop :=
  i = .nextU32 ∨ i = .nextU64 ∨ (∃ len, i = .fill len) ∨ i = .jump ∨ i = .stateRead

/-- The commands that write S (10_state.md R21). -/
def writesState (i : Instr) : Prop :=
  (∃ beats, i = .seed beats) ∨ (∃ v, i = .seedU64 v) ∨ i = .nextU32 ∨ i = .nextU64 ∨ (∃ len, i = .fill len) ∨ i = .jump

/-- The number of out-beats of a command that ends with OK (30_encoding.md R78). -/
def beatsOut (v : Variant) : Instr → Nat
  | .seed _ | .seedU64 _ | .jump => 0
  | .nextU32 | .readStatus | .readCap => 1
  | .nextU64 => 2
  | .fill len => (len.toNat + 3) / 4
  | .stateRead => if v = .SM64 then 2 else 4

/-- The LIFE after a command from the LIFE before it and the response (10_state.md R24). -/
def lifeAfter (life : Machine.Life) (i : Instr) : Machine.Resp → Machine.Life
  | .error .ZERO_SEED => .UNSEEDED
  | .error _ => life
  | .OK =>
    match i with
    | .seed _ | .seedU64 _ => .SEEDED
    | .nextU32 | .nextU64 | .jump => .ADVANCING
    | .fill len => if len = 0#24 then life else .ADVANCING
    | .stateRead | .readStatus | .readCap => life

/-- p(M)·S for the xoshiro128 kernel M and the polynomial whose bit j is the coefficient of x^j (45_jump.md R202, R204). -/
def polyX128 (p : BitVec 128) (S : Machine.X128) : Machine.X128 :=
  (List.range 128).foldl (fun A j => if p.getLsbD j then A.xor (nextX128^[j] S) else A) ⟨0, 0, 0, 0⟩

/-- p(M)·S for the xoroshiro128 kernel M (45_jump.md R202, R204). -/
def polyXR128 (p : BitVec 128) (S : Machine.XR128) : Machine.XR128 :=
  (List.range 128).foldl (fun A j => if p.getLsbD j then A.xor (nextXR128^[j] S) else A) ⟨0, 0⟩

/-- The constants of 10_state.md R28: variant, HAS_LANE_BLEND, CAP (only X128SS_V reads HAS_LANE_BLEND, 00_scope.md R7). -/
def capTable : List (Variant × Bool × Word) :=
  [(.SM64, false, 0x00008111#32), (.SM64, true, 0x00008111#32),
   (.X128SS, false, 0x00010422#32), (.X128SS, true, 0x00010422#32),
   (.X128P, false, 0x00010423#32), (.X128P, true, 0x00010423#32),
   (.XR128SS, false, 0x00010234#32), (.XR128SS, true, 0x00010234#32),
   (.XR128P, false, 0x00010235#32), (.XR128P, true, 0x00010235#32),
   (.X128SS_V, false, 0x00010446#32), (.X128SS_V, true, 0x000104C6#32)]

/-- Two states of an XCORE are alike for a command stream: their current instances have the same build, S, LIFE, ZSF and
the same response words on the port. -/
def sameStream (x y : Machine.Instance) : Prop :=
  x.build = y.build ∧ x.S = y.S ∧ x.LIFE = y.LIFE ∧ x.ZSF = y.ZSF ∧ x.tx = y.tx

end Sys2Proof.Claims

open Sys2Proof Sys2Proof.Machine Sys2Proof.Claims

/-! ### Reset and the legal states -/

/-- The reset values of S, LIFE, ZSF and STATUS (10_state.md R35), with CAP the constant of R28. Two clauses are the model's:
`State.reset` is the configuration `Config.builds` (DESIGN CHOICE, assumption log 1), and both directions of the port are empty
(assumption log 5, from 70_reset_and_hazards.md R271 "After reset the port expects a command word"). -/
def Obligations.ResetValuesOfEveryInstance : Prop :=
  State.reset = State.resetOf Config.builds ∧
  ∀ builds : List Build,
    (State.resetOf builds).engines.length = builds.length ∧
    ∀ (e : Nat) (b : Build), builds[e]? = some b →
      ∃ x : Instance, (State.resetOf builds).engines[e]? = some x ∧ x.build = b ∧ x.S = .bot ∧ x.LIFE = .UNSEEDED ∧
        x.ZSF = false ∧ statusWord x.LIFE x.ZSF = 0#32 ∧ (b.variant, b.hasLaneBlend, capWord x.build) ∈ capTable ∧
        x.rx = [] ∧ x.tx = []

/-- 70_reset_and_hazards.md R270, R271: a reset that is asserted takes every instance to its reset values, whatever
transaction its port holds, and sends nothing; the build parameters stay. (That a reset comes before a transaction that is
ready is the model's choice, assumption log 7.) -/
def Obligations.ResetInputAbandonsTransactions : Prop :=
  ∀ (s : State) (rest : List HostInput), s.inputs = .reset :: rest →
    ∃ t : State, step s = .next t ∧ t.inputs = rest ∧ t.engines.length = s.engines.length ∧
      ∀ (e : Nat) (x : Instance), s.engines[e]? = some x →
        t.engines[e]? =
          some { build := x.build, S := .bot, LIFE := .UNSEEDED, ZSF := false, rx := [], tx := [] }

/-- The invariant of legal states (10_state.md R21, R25, R32, R35; 46_simd.md R222) holds at reset in every configuration
with at least one instance. -/
def Obligations.LegalStateAtReset : Prop :=
  ∀ builds : List Build, builds ≠ [] → (State.resetOf builds).Inv

/-- Every step from a legal state that goes on leads to a legal state (10_state.md R21, R25, R32, R35; 46_simd.md R222). -/
def Obligations.StepKeepsLegalState : Prop :=
  ∀ s t : State, s.Inv → step s = .next t → t.Inv

/-- 10_state.md R32, of every run from reset with whatever the host sends: a seeded xoroshiro128 instance never holds ⊥ or
the all-zero state. -/
def Obligations.XoroshiroStateNeverZeroInAnyRun : Prop :=
  ∀ (builds : List Build) (inputs : List HostInput) (k : Nat) (t : State),
    Host.Core.run core k { State.resetOf builds with inputs := inputs } = .next t →
    ∀ x ∈ t.engines, isXR128 x.build.variant → x.LIFE ≠ .UNSEEDED →
      ∃ S : XR128, x.S = .xr128 S ∧ S ≠ ⟨0, 0⟩

/-! ### Encoding -/

/-- Decoding an encoded well-formed command gives it back, whatever words follow it on the port (30_encoding.md R70-R76). -/
def Obligations.DecodeOfEncode : Prop :=
  ∀ (v : Variant) (i : Instr) (rest : List Word), i.wellFormed v = true → decode v (encode i ++ rest) = .cmd i rest

/-- The words the decoder accepts are the encoding of the well-formed command it answers (30_encoding.md R70-R76). -/
def Obligations.EncodeOfDecode : Prop :=
  ∀ (v : Variant) (ws rest : List Word) (i : Instr), decode v ws = .cmd i rest →
    i.wellFormed v = true ∧ ws = encode i ++ rest

/-- 30_encoding.md R82: the reference command words. -/
def Obligations.ReferenceCommandWords : Prop :=
  decode .X128SS [0x00000001#32, 1#32, 2#32, 3#32, 4#32] = .cmd (.seed [1#32, 2#32, 3#32, 4#32]) [] ∧
  decode .SM64 [0x00000002#32, 0xa0a048bd#32, 0x14821d7f#32] = .cmd (.seedU64 1477776061723855037#64) [] ∧
  decode .X128P [0x00000003#32] = .cmd .nextU32 [] ∧
  decode .XR128P [0x00000004#32] = .cmd .nextU64 [] ∧
  decode .XR128SS [0x00000005#32] = .cmd (.fill 0#24) [] ∧
  decode .XR128SS [0x00000705#32] = .cmd (.fill 7#24) [] ∧
  decode .XR128SS [0xFFFFFF05#32] = .cmd (.fill 16777215#24) [] ∧
  decode .X128SS [0x00000006#32] = .cmd .jump [] ∧
  decode .X128SS_V [0x00000007#32] = .cmd .stateRead [] ∧
  decode .SM64 [0x00000008#32] = .cmd .readStatus [] ∧
  decode .X128SS_V [0x00000009#32] = .cmd .readCap [] ∧
  decode .X128SS [0x00000103#32] = .reject (.reservedBits 3#8 1#24) [] ∧
  decode .X128SS [0x00000000#32] = .reject (.reservedOpcode 0#8) []

/-- 30_encoding.md R72: a command word is read as a command exactly when it matches that command's row of the opcode table
under the row's mask, whatever in-beats follow. -/
def Obligations.DecoderFollowsOpcodeTable : Prop :=
  ∀ (cw : Word) (beats : List Word) (o : Opcode),
    (∃ i : Instr, decodeCommand cw beats = .ok i ∧ i.opcode = o) ↔
      ∃ pattern mask : Word,
        (o, pattern, mask) ∈
          [(Opcode.SEED, 0x00000001#32, 0xFFFFFFFF#32), (Opcode.SEED_U64, 0x00000002#32, 0xFFFFFFFF#32),
           (Opcode.NEXT_U32, 0x00000003#32, 0xFFFFFFFF#32), (Opcode.NEXT_U64, 0x00000004#32, 0xFFFFFFFF#32),
           (Opcode.FILL, 0x00000005#32, 0x000000FF#32), (Opcode.JUMP, 0x00000006#32, 0xFFFFFFFF#32),
           (Opcode.STATE_READ, 0x00000007#32, 0xFFFFFFFF#32), (Opcode.READ_STATUS, 0x00000008#32, 0xFFFFFFFF#32),
           (Opcode.READ_CAP, 0x00000009#32, 0xFFFFFFFF#32)] ∧
        cw &&& mask = pattern

/-! ### One step -/

/-- When a well-formed command stands at the head of the port of the first ready instance, its previous response taken and
no reset asserted, the step is exec of that command on that instance, whose port is left with the words after it
(30_encoding.md R70, 20_memory.md R57). That the first ready instance is served, and becomes `cur`, is the model's choice
(assumption log 4). -/
def Obligations.StepRunsTheDecodedCommand : Prop :=
  ∀ (s : State) (e : Nat) (x : Instance) (i : Instr) (rest : List Word),
    s.inputs.head? ≠ some .reset → s.engines[e]? = some x → x.tx = [] →
    i.wellFormed x.build.variant = true → x.rx = encode i ++ rest →
    (∀ (j : Nat) (y : Instance), j < e → s.engines[j]? = some y → y.ready = false) →
    step s = exec i { s with cur := e, engines := s.engines.set e { x with rx := rest } }

/-- 60_exceptions.md R243 and 30_encoding.md R74: a reserved operation code, or CW[31:8] ≠ 0 with one other than FILL, is
answered ERR_ILLEGAL; its in-beats (none for a reserved operation code, P_in else) are taken and no state of the instance
changes. (That the first ready instance is served, and becomes `cur`, is the model's choice, assumption log 4.) -/
def Obligations.IllegalCommandWordAnswered : Prop :=
  ∀ (s : State) (e : Nat) (x : Instance) (cw : Word) (ws : List Word),
    s.inputs.head? ≠ some .reset → s.engines[e]? = some x → x.tx = [] → x.rx = cw :: ws →
    (∀ (j : Nat) (y : Instance), j < e → s.engines[j]? = some y → y.ready = false) →
    illegal cw → beatsIn x.build.variant cw ≤ ws.length →
    step s = .next { s with
      cur := e
      engines := s.engines.set e { x with rx := ws.drop (beatsIn x.build.variant cw), tx := [0x00000003#32] } }

/-- 60_exceptions.md R247 and 44_engine_commands.md R160: the response of a whole transaction is the first error that applies
in the order ILLEGAL, UNSUPPORTED, UNSEEDED, ZERO_SEED, and OK if none does. (That the first ready instance is served is the
model's choice, assumption log 4.) -/
def Obligations.ResponseCodePriority : Prop :=
  ∀ (s : State) (e : Nat) (x : Instance) (cw : Word) (ws : List Word),
    s.inputs.head? ≠ some .reset → s.engines[e]? = some x → x.Inv → x.tx = [] → x.rx = cw :: ws →
    (∀ (j : Nat) (y : Instance), j < e → s.engines[j]? = some y → y.ready = false) →
    beatsIn x.build.variant cw ≤ ws.length →
    ∃ (t : State) (y : Instance) (rw : Word) (outs : List Word),
      step s = .next t ∧ t.engines[e]? = some y ∧ y.tx = rw :: outs ∧
      (illegal cw → rw = 0x00000003#32) ∧
      (¬ illegal cw → unsupported x.build (cw.toNat % 256) → rw = 0x00000004#32) ∧
      (¬ illegal cw → ¬ unsupported x.build (cw.toNat % 256) →
        readsState (cw.toNat % 256) ∧ x.LIFE = .UNSEEDED → rw = 0x00000002#32) ∧
      (¬ illegal cw → ¬ unsupported x.build (cw.toNat % 256) →
        ¬ (readsState (cw.toNat % 256) ∧ x.LIFE = .UNSEEDED) →
        (isXR128 x.build.variant ∧ cw.toNat % 256 = 1 ∧ ws.take 4 = [0#32, 0#32, 0#32, 0#32] → rw = 0x00000001#32) ∧
        (¬ (isXR128 x.build.variant ∧ cw.toNat % 256 = 1 ∧ ws.take 4 = [0#32, 0#32, 0#32, 0#32]) → rw = 0x00000000#32))

/-- 70_reset_and_hazards.md R274, R283: while the previous response has not been taken whole, or in-beats are missing, no
step but a reset changes the instance's S, LIFE or ZSF; the words on its port are held, in order. -/
def Obligations.UnfinishedTransactionIsHeld : Prop :=
  ∀ (s t : State) (e : Nat) (x : Instance),
    s.inputs.head? ≠ some .reset → s.engines[e]? = some x →
    (x.tx ≠ [] ∨ x.rx = [] ∨ ∃ (cw : Word) (ws : List Word), x.rx = cw :: ws ∧ ws.length < beatsIn x.build.variant cw) →
    step s = .next t →
    ∃ y : Instance, t.engines[e]? = some y ∧ y.build = x.build ∧ y.S = x.S ∧ y.LIFE = x.LIFE ∧ y.ZSF = x.ZSF ∧
      (y.rx = x.rx ∨ ∃ w : Word, s.inputs.head? = some (.send e w) ∧ y.rx = x.rx ++ [w]) ∧
      (y.tx = x.tx ∨ (s.inputs.head? = some (.take e) ∧ y.tx = x.tx.tail))

/-- With no instance ready: a word the host sends joins the port's words, a word the host takes leaves the response, an
input that names no instance faults, and with no input nothing changes (30_encoding.md R70, 60_exceptions.md R254, R256; the
fault and the empty take are the model's choices, assumption log 9 and 10). -/
def Obligations.PortsWithoutAReadyInstance : Prop :=
  ∀ s : State, (∀ x ∈ s.engines, x.ready = false) →
    (s.inputs = [] → step s = .next s) ∧
    (∀ (e : Nat) (w : Word) (rest : List HostInput), s.inputs = .send e w :: rest →
      (∀ x, s.engines[e]? = some x →
        step s = .next { s with inputs := rest, engines := s.engines.set e { x with rx := x.rx ++ [w] } }) ∧
      (s.engines[e]? = none → step s = .fault .noSuchInstance)) ∧
    (∀ (e : Nat) (rest : List HostInput), s.inputs = .take e :: rest →
      (∀ x, s.engines[e]? = some x →
        step s = .next { s with inputs := rest, engines := s.engines.set e { x with tx := x.tx.drop 1 } }) ∧
      (s.engines[e]? = none → step s = .fault .noSuchInstance))

/-! ### Errors, completion and stops -/

/-- 60_exceptions.md R244: a command the variant does not implement is answered ERR_UNSUPPORTED and changes nothing. -/
def Obligations.UnsupportedCommandChangesNothing : Prop :=
  ∀ (i : Instr) (s : State) (x : Instance), s.current = some x →
    ((x.build.variant = .SM64 ∧ i = .jump) ∨
     (x.build.variant = .X128SS_V ∧ ((∃ v, i = .seedU64 v) ∨ i = .nextU64 ∨ (∃ len, i = .fill len) ∨ i = .jump)) ∨
     (x.build.variant = .X128SS_V ∧ x.build.hasLaneBlend = false ∧ i ≠ .readStatus ∧ i ≠ .readCap)) →
    exec i s = .next (s.setCurrent { x with tx := x.tx ++ [0x00000004#32] })

/-- 60_exceptions.md R242: NEXT_U32, NEXT_U64, FILL, JUMP or STATE_READ while LIFE = UNSEEDED, on an instance that supports
the command, is answered ERR_UNSEEDED and changes nothing. -/
def Obligations.UnseededCommandChangesNothing : Prop :=
  ∀ (i : Instr) (s : State) (x : Instance), s.current = some x → x.LIFE = .UNSEEDED → needsASeed i →
    (i = .jump → x.build.variant ≠ .SM64) →
    (x.build.variant = .X128SS_V → x.build.hasLaneBlend = true ∧ (i = .nextU32 ∨ i = .stateRead)) →
    exec i s = .next (s.setCurrent { x with tx := x.tx ++ [0x00000002#32] })

/-- Every well-formed command on every instance in a legal state ends with one response and the machine goes on
(60_exceptions.md R240, R245; 20_memory.md R57; 70_reset_and_hazards.md R276). -/
def Obligations.EveryCommandCompletes : Prop :=
  ∀ (i : Instr) (s : State) (x : Instance), s.current = some x → x.Inv → i.wellFormed x.build.variant = true →
    ∃ (y : Instance) (r : Resp) (outs : List Word),
      exec i s = .next (s.setCurrent y) ∧ y.tx = x.tx ++ responseWord r :: outs

/-- The model's own stops: no current instance, SEED with a number of in-beats that no port delivers, and a read of S while
it holds ⊥ or another variant's words although LIFE ≠ UNSEEDED (93_implementation_defined.md U1, U17; assumption log 3, 9
and 11). -/
def Obligations.StopsOnUnreachableForms : Prop :=
  (∀ (i : Instr) (s : State), s.current = none → exec i s = .fault .noSuchInstance) ∧
  (∀ (beats : List Word) (s : State) (x : Instance), s.current = some x →
    (x.build.variant = .X128SS_V → x.build.hasLaneBlend = true) →
    beats.length ≠ (if x.build.variant = .SM64 then 2 else 4) →
    exec (.seed beats) s = .refused .misframedSeed) ∧
  (∀ (i : Instr) (s : State) (x : Instance), s.current = some x → x.LIFE ≠ .UNSEEDED → needsASeed i →
    (∀ len, i = .fill len → len ≠ 0#24) →
    (i = .jump → x.build.variant ≠ .SM64) →
    (x.build.variant = .X128SS_V → x.build.hasLaneBlend = true ∧ (i = .nextU32 ∨ i = .stateRead)) →
    x.S.fits x.build.variant = false →
    exec i s = .refused .bottomRead)

/-! ### Seeding -/

/-- 44_engine_commands.md R165, R167, R168; 30_encoding.md R76: an accepted SEED installs the little-endian words of its
in-beats in every LIFE, all-zero seeds included on every variant but the xoroshiro ones; LIFE becomes SEEDED, ZSF stays. -/
def Obligations.SeedInstallsItsWords : Prop :=
  (∀ (s : State) (x : Instance) (b0 b1 b2 b3 : Word), s.current = some x → isX128 x.build.variant →
    exec (.seed [b0, b1, b2, b3]) s = .next (s.setCurrent
      { x with S := .x128 ⟨b0, b1, b2, b3⟩, LIFE := .SEEDED, tx := x.tx ++ [0x00000000#32] })) ∧
  (∀ (s : State) (x : Instance) (b0 b1 b2 b3 : Word), s.current = some x → isXR128 x.build.variant →
    ¬ (b0 = 0 ∧ b1 = 0 ∧ b2 = 0 ∧ b3 = 0) →
    exec (.seed [b0, b1, b2, b3]) s = .next (s.setCurrent
      { x with S := .xr128 ⟨join b1 b0, join b3 b2⟩, LIFE := .SEEDED, tx := x.tx ++ [0x00000000#32] })) ∧
  (∀ (s : State) (x : Instance) (b0 b1 : Word), s.current = some x → x.build.variant = .SM64 →
    exec (.seed [b0, b1]) s = .next (s.setCurrent
      { x with S := .sm64 (join b1 b0), LIFE := .SEEDED, tx := x.tx ++ [0x00000000#32] })) ∧
  (∀ (s : State) (x : Instance) (b0 b1 b2 b3 : Word), s.current = some x → x.build.variant = .X128SS_V →
    x.build.hasLaneBlend = true →
    ∃ vs : BitVec 128,
      vs.extractLsb' 0 32 = b0 ∧ vs.extractLsb' 32 32 = b1 ∧ vs.extractLsb' 64 32 = b2 ∧ vs.extractLsb' 96 32 = b3 ∧
      exec (.seed [b0, b1, b2, b3]) s = .next (s.setCurrent
        { x with S := .vec vs, LIFE := .SEEDED, tx := x.tx ++ [0x00000000#32] }))

/-- 44_engine_commands.md R166, 60_exceptions.md R241: an all-zero SEED on XR128SS or XR128P is answered ERR_ZERO_SEED; S
becomes ⊥, LIFE UNSEEDED and ZSF 1. No other command is answered so. -/
def Obligations.ZeroSeedIsRejected : Prop :=
  (∀ (s : State) (x : Instance), s.current = some x → isXR128 x.build.variant →
    exec (.seed [0#32, 0#32, 0#32, 0#32]) s = .next (s.setCurrent
      { x with S := .bot, LIFE := .UNSEEDED, ZSF := true, tx := x.tx ++ [0x00000001#32] })) ∧
  (∀ (i : Instr) (s t : State) (x y : Instance), exec i s = .next t → s.current = some x → t.current = some y →
    y.tx = x.tx ++ [0x00000001#32] → isXR128 x.build.variant ∧ i = .seed [0#32, 0#32, 0#32, 0#32])

/-- 44_engine_commands.md R170, R171; 41_splitmix64.md R104: SEED_U64 installs the SplitMix64 expansion of its operand, or the
operand itself on SM64; LIFE becomes SEEDED, ZSF stays. -/
def Obligations.SeedU64InstallsTheExpansion : Prop :=
  ∀ (s : State) (x : Instance) (v : Word64), s.current = some x →
    (isX128 x.build.variant → exec (.seedU64 v) s = .next (s.setCurrent
      { x with
        S := .x128 ⟨lowHalf (splitMix (v + gamma)), lowHalf (splitMix (v + gamma + gamma)),
          lowHalf (splitMix (v + gamma + gamma + gamma)), lowHalf (splitMix (v + gamma + gamma + gamma + gamma))⟩
        LIFE := .SEEDED
        tx := x.tx ++ [0x00000000#32] })) ∧
    (isXR128 x.build.variant → exec (.seedU64 v) s = .next (s.setCurrent
      { x with
        S := .xr128 ⟨splitMix (v + gamma), splitMix (v + gamma + gamma)⟩
        LIFE := .SEEDED
        tx := x.tx ++ [0x00000000#32] })) ∧
    (x.build.variant = .SM64 → exec (.seedU64 v) s = .next (s.setCurrent
      { x with S := .sm64 v, LIFE := .SEEDED, tx := x.tx ++ [0x00000000#32] }))

/-- 41_splitmix64.md R106: the expansion of no operand is the all-zero xoroshiro128 state. -/
def Obligations.ExpansionIsNeverZero : Prop :=
  ∀ v : Word64, expandXR128 v = ⟨mix (v + gamma), mix (v + 2 * gamma)⟩ ∧ v + gamma ≠ v + 2 * gamma ∧
    ¬ (mix (v + gamma) = 0 ∧ mix (v + 2 * gamma) = 0) ∧ expandXR128 v ≠ ⟨0, 0⟩

/-- 41_splitmix64.md R105: mix and each of its steps are bijections, and only 0 is mapped to 0. -/
def Obligations.MixIsBijective : Prop :=
  Function.Bijective mix ∧ (∀ z : Word64, mix z = 0 ↔ z = 0) ∧
  (∀ k : Nat, 1 ≤ k → Function.Bijective fun z : Word64 => z ^^^ (z >>> k)) ∧
  (∀ c : Word64, c.toNat % 2 = 1 → Function.Bijective fun z : Word64 => z * c) ∧ MIX1.toNat % 2 = 1 ∧ MIX2.toNat % 2 = 1

/-- 42_scramblers.md R126 and 43_kernels.md R149: the corner cases of the scramblers and the kernels. -/
def Obligations.FunctionCornerCases : Prop :=
  (∀ w : Nat, starstar (0 : BitVec w) = 0) ∧
  starstar 1#32 = 0x00001680#32 ∧ starstar 0xFFFFFFFF#32 = 0xFFFFEDF7#32 ∧ starstar 0x80000000#32 = 0x00000240#32 ∧
  starstar 1#64 = 0x0000000000001680#64 ∧ starstar 0xFFFFFFFFFFFFFFFF#64 = 0xFFFFFFFFFFFFEDF7#64 ∧
  starstar 0x8000000000000000#64 = 0x0000000000000240#64 ∧
  (∀ v, isX128 v → outOf v (.x128 ⟨0, 0, 0, 0⟩) = some (.w32 0)) ∧
  (∀ v, isXR128 v → outOf v (.xr128 ⟨0, 0⟩) = some (.w64 0)) ∧
  outOf .X128SS_V (.vec 0) = some (.w32 0) ∧
  (∀ a b, outOf .X128P (.x128 ⟨0xFFFFFFFF, a, b, 1⟩) = some (.w32 0)) ∧
  outOf .XR128P (.xr128 ⟨0xFFFFFFFFFFFFFFFF, 1⟩) = some (.w64 0) ∧
  (∀ v S, S.fits v = true → (outOf v S).isSome = true) ∧
  stepX128 ⟨0xFFFFFFFF, 0xFFFFFFFF, 0xFFFFFFFF, 0xFFFFFFFF⟩ = ⟨0xFFFFFFFF, 0xFFFFFFFF, 0xFFFFFE00, 0x00000000⟩ ∧
  stepX128 ⟨0, 1, 0, 0⟩ = ⟨0x00000001, 0x00000001, 0x00000200, 0x00000800⟩ ∧
  stepX128 ⟨0, 0x80000000, 0, 0⟩ = ⟨0x80000000, 0x80000000, 0x00000000, 0x00000400⟩ ∧
  stepX128 ⟨0, 0, 0, 0x80000000⟩ = ⟨0x80000000, 0, 0, 0x00000400⟩ ∧
  stepXR128 ⟨0xFFFFFFFFFFFFFFFF, 0xFFFFFFFFFFFFFFFF⟩ = ⟨0xFFFFFFFFFFFFFFFF, 0⟩ ∧
  stepXR128 ⟨1, 0⟩ = ⟨0x0000000001010001, 0x0000002000000000⟩ ∧
  stepXR128 ⟨0, 1⟩ = ⟨0x0000000000010001, 0x0000002000000000⟩ ∧
  stepXR128 ⟨0, 0x8000000000000000⟩ = ⟨0x8000000000000000, 0x0000001000000000⟩

/-! ### The kernels -/

/-- 43_kernels.md R141: the xoshiro128 transition in closed form, with its example. -/
def Obligations.XoshiroStepInClosedForm : Prop :=
  (∀ S : X128, stepX128 S = nextX128 S) ∧ stepX128 ⟨1, 2, 3, 4⟩ = ⟨7, 0, 1026, 12288⟩

/-- 43_kernels.md R142: the xoshiro128 transition is linear over GF(2), and the all-zero state is a fixed point. -/
def Obligations.XoshiroStepIsLinear : Prop :=
  (∀ S T : X128, stepX128 (S.xor T) = (stepX128 S).xor (stepX128 T)) ∧
  stepX128 ⟨0, 0, 0, 0⟩ = ⟨0, 0, 0, 0⟩

/-- 43_kernels.md R143: both kernels are invertible, with the inverse of the xoshiro128 transition, and map non-zero states to
non-zero states. -/
def Obligations.XoshiroStepInverts : Prop :=
  let back : X128 → X128 := fun T =>
    let a := T.s3.rotateLeft 21
    let s0 := T.s0 ^^^ a
    let d := T.s1 ^^^ T.s2
    let s1 := d ^^^ (d <<< 9) ^^^ (d <<< 18) ^^^ (d <<< 27)
    ⟨s0, s1, T.s1 ^^^ s0 ^^^ s1, a ^^^ s1⟩
  (∀ S, back (stepX128 S) = S) ∧ (∀ S, stepX128 (back S) = S) ∧ Function.Bijective stepX128 ∧ Function.Bijective stepXR128 ∧
  (∀ S, S ≠ ⟨0, 0, 0, 0⟩ → stepX128 S ≠ ⟨0, 0, 0, 0⟩) ∧ (∀ S, S ≠ ⟨0, 0⟩ → stepXR128 S ≠ ⟨0, 0⟩)

/-- 43_kernels.md R145: the xoroshiro128 transition is linear, fixes the all-zero state, and has the given inverse, from
either side. -/
def Obligations.XoroshiroStepIsLinearAndInverts : Prop :=
  let back : XR128 → XR128 := fun T =>
    let x := T.s1.rotateLeft 27
    let s0 := (T.s0 ^^^ x ^^^ (x <<< 16)).rotateLeft 40
    ⟨s0, x ^^^ s0⟩
  (∀ S T : XR128, stepXR128 (S.xor T) = (stepXR128 S).xor (stepXR128 T)) ∧
  stepXR128 ⟨0, 0⟩ = ⟨0, 0⟩ ∧ (∀ S, back (stepXR128 S) = S) ∧ (∀ S, stepXR128 (back S) = S)

/-- The whole period (43_kernels.md R148): a non-zero state returns after k transitions exactly when 2^128 - 1 divides k. -/
def Obligations.PeriodOfEveryNonzeroState : Prop :=
  (∀ (S : X128) (k : Nat), S ≠ ⟨0, 0, 0, 0⟩ → (stepX128^[k] S = S ↔ (2 ^ 128 - 1) ∣ k)) ∧
  (∀ (S : XR128) (k : Nat), S ≠ ⟨0, 0⟩ → (stepXR128^[k] S = S ↔ (2 ^ 128 - 1) ∣ k))

/-- The lane schedule equals the scalar kernel lane by lane, and the output is that of lane 0 (46_simd.md R221). -/
def Obligations.VectorStepIsLaneByLane : Prop :=
  ∀ vs : BitVec 128, lanesOf (stepV vs) = stepX128 (lanesOf vs) ∧
    outOf .X128SS_V (.vec vs) = some (.w32 (starStar (vs.extractLsb' 0 32)))

/-! ### Extraction -/

/-- 44_engine_commands.md R175 on X128SS and X128P: NEXT_U32 returns the native output of the pre-transition state. -/
def Obligations.NextU32OnXoshiro128 : Prop :=
  ∀ (s : State) (x : Instance) (S : X128), s.current = some x → isX128 x.build.variant → x.LIFE ≠ .UNSEEDED →
    x.S = .x128 S →
    exec .nextU32 s = .next (s.setCurrent
      { x with S := .x128 (nextX128 S), LIFE := .ADVANCING, tx := x.tx ++ [0x00000000#32, outX128 x.build.variant S] })

/-- 44_engine_commands.md R175 on XR128SS and XR128P: NEXT_U32 returns the upper half of the native output. -/
def Obligations.NextU32OnXoroshiro128 : Prop :=
  ∀ (s : State) (x : Instance) (S : XR128), s.current = some x → isXR128 x.build.variant → x.LIFE ≠ .UNSEEDED →
    x.S = .xr128 S →
    exec .nextU32 s = .next (s.setCurrent
      { x with
        S := .xr128 (nextXR128 S)
        LIFE := .ADVANCING
        tx := x.tx ++ [0x00000000#32, highHalf (outXR128 x.build.variant S)] })

/-- 44_engine_commands.md R175, R176 on SM64: NEXT_U32 returns the lower half of the native output. -/
def Obligations.NextU32OnSplitMix : Prop :=
  ∀ (s : State) (x : Instance) (t : Word64), s.current = some x → x.build.variant = .SM64 → x.LIFE ≠ .UNSEEDED →
    x.S = .sm64 t →
    exec .nextU32 s = .next (s.setCurrent
      { x with
        S := .sm64 (t + gamma)
        LIFE := .ADVANCING
        tx := x.tx ++ [0x00000000#32, lowHalf (splitMix (t + gamma))] })

/-- 46_simd.md R224: NEXT_U32 of the vector unit, over the lanes of VS, with the rule's example of five results. -/
def Obligations.NextU32OnVectorUnit : Prop :=
  (∀ (s : State) (x : Instance) (vs : BitVec 128), s.current = some x → x.build.variant = .X128SS_V →
    x.build.hasLaneBlend = true → x.LIFE ≠ .UNSEEDED → x.S = .vec vs →
    ∃ vs' : BitVec 128,
      (let S : X128 := ⟨vs.extractLsb' 0 32, vs.extractLsb' 32 32, vs.extractLsb' 64 32, vs.extractLsb' 96 32⟩
       vs'.extractLsb' 0 32 = (nextX128 S).s0 ∧ vs'.extractLsb' 32 32 = (nextX128 S).s1 ∧
       vs'.extractLsb' 64 32 = (nextX128 S).s2 ∧ vs'.extractLsb' 96 32 = (nextX128 S).s3) ∧
      exec .nextU32 s = .next (s.setCurrent
        { x with S := .vec vs', LIFE := .ADVANCING, tx := x.tx ++ [0x00000000#32, starStar (vs.extractLsb' 0 32)] })) ∧
  (∀ (s : State) (x : Instance), s.current = some x → x.build.variant = .X128SS_V → x.build.hasLaneBlend = true →
    ∃ (t : State) (y : Instance),
      execAll [.seed [1, 2, 3, 4], .nextU32, .nextU32, .nextU32, .nextU32, .nextU32] s = .next t ∧ t.current = some y ∧
      y.tx = x.tx ++ [0#32, 0#32, 5760#32, 0#32, 40320#32, 0#32, 70819200#32, 0#32, 3297914139#32, 0#32, 2480851620#32])

/-- 44_engine_commands.md R180 on XR128SS and XR128P: NEXT_U64 returns the native output, low half first. -/
def Obligations.NextU64OnXoroshiro128 : Prop :=
  ∀ (s : State) (x : Instance) (S : XR128), s.current = some x → isXR128 x.build.variant → x.LIFE ≠ .UNSEEDED →
    x.S = .xr128 S →
    exec .nextU64 s = .next (s.setCurrent
      { x with
        S := .xr128 (nextXR128 S)
        LIFE := .ADVANCING
        tx := x.tx ++
          [0x00000000#32, lowHalf (outXR128 x.build.variant S), highHalf (outXR128 x.build.variant S)] })

/-- 44_engine_commands.md R180 on SM64: NEXT_U64 returns the native output, low half first. -/
def Obligations.NextU64OnSplitMix : Prop :=
  ∀ (s : State) (x : Instance) (t : Word64), s.current = some x → x.build.variant = .SM64 → x.LIFE ≠ .UNSEEDED →
    x.S = .sm64 t →
    exec .nextU64 s = .next (s.setCurrent
      { x with
        S := .sm64 (t + gamma)
        LIFE := .ADVANCING
        tx := x.tx ++ [0x00000000#32, lowHalf (splitMix (t + gamma)), highHalf (splitMix (t + gamma))] })

/-- 44_engine_commands.md R180, R181 on X128SS and X128P: NEXT_U64 takes two native steps; the first output is the low
half and is sent first. -/
def Obligations.NextU64OnXoshiro128 : Prop :=
  ∀ (s : State) (x : Instance) (S : X128), s.current = some x → isX128 x.build.variant → x.LIFE ≠ .UNSEEDED →
    x.S = .x128 S →
    exec .nextU64 s = .next (s.setCurrent
      { x with
        S := .x128 (nextX128 (nextX128 S))
        LIFE := .ADVANCING
        tx := x.tx ++ [0x00000000#32, outX128 x.build.variant S, outX128 x.build.variant (nextX128 S)] })

/-- The corner case of 44_engine_commands.md R180: on X128SS and X128P, NEXT_U64 returns what two NEXT_U32 in a row return and
leaves the same S, LIFE and ZSF. -/
def Obligations.NextU64IsTwoNextU32 : Prop :=
  ∀ (s : State) (x : Instance), s.current = some x → isX128 x.build.variant → x.LIFE ≠ .UNSEEDED →
    x.S.fits x.build.variant = true →
    ∃ (y : Instance) (lo hi : Word),
      exec .nextU64 s = .next (s.setCurrent { y with tx := x.tx ++ [0#32, lo, hi] }) ∧
      execAll [.nextU32, .nextU32] s = .next (s.setCurrent { y with tx := x.tx ++ [0#32, lo, 0#32, hi] })

/-- 44_engine_commands.md R197: of two XR128SS or two XR128P instances with equal S, NEXT_U32 on the first returns the upper
half of what NEXT_U64 returns on the second, and both leave equal S. -/
def Obligations.WidthDerivation : Prop :=
  ∀ (s t : State) (x y : Instance), s.current = some x → t.current = some y → isXR128 x.build.variant →
    y.build.variant = x.build.variant → x.LIFE ≠ .UNSEEDED → y.LIFE ≠ .UNSEEDED →
    x.S.fits x.build.variant = true → y.S = x.S →
    ∃ (S' : StateReg) (lo hi : Word),
      exec .nextU32 s = .next (s.setCurrent { x with S := S', LIFE := .ADVANCING, tx := x.tx ++ [0#32, hi] }) ∧
      exec .nextU64 t = .next (t.setCurrent { y with S := S', LIFE := .ADVANCING, tx := y.tx ++ [0#32, lo, hi] })

/-! ### FILL -/

/-- 44_engine_commands.md R185, R186: FILL takes ceil(LEN/(w/8)) native steps and sends ceil(LEN/4) beats, byte j of which is
byte j mod (w/8) of native output j div (w/8), and 0 past LEN; LEN = 0 leaves S and LIFE. -/
def Obligations.FillWritesTheNativeStream : Prop :=
  ∀ (len : BitVec 24) (s : State) (x : Instance), s.current = some x → x.build.variant ≠ .X128SS_V →
    x.LIFE ≠ .UNSEEDED → x.S.fits x.build.variant = true →
    ∃ (S' : StateReg) (beats : List Word),
      stateAfter x.build.variant
        ((len.toNat + x.build.variant.width / 8 - 1) / (x.build.variant.width / 8)) x.S = some S' ∧
      beats.length = (len.toNat + 3) / 4 ∧
      (∀ j < len.toNat, ∃ o : OutWord,
        outputAt x.build.variant (j / (x.build.variant.width / 8)) x.S = some o ∧
        beatByte beats j = outByte o (j % (x.build.variant.width / 8))) ∧
      (∀ j, len.toNat ≤ j → beatByte beats j = 0) ∧
      exec (.fill len) s = .next (s.setCurrent
        { x with S := S', LIFE := if len = 0#24 then x.LIFE else .ADVANCING, tx := x.tx ++ 0x00000000#32 :: beats })

/-- 44_engine_commands.md R187: FILL a then FILL b gives the bytes and the final S of FILL (a+b) when a is a multiple of
w/8; there is an instance and an a that is no multiple for which the bytes differ. -/
def Obligations.FillComposition : Prop :=
  let fills (a b : BitVec 24) (s : State) (x : Instance) (A B C : List Word) (S2 S3 : StateReg) : Prop :=
    ∃ (t1 t2 t3 : State) (y1 y2 y3 : Instance),
      exec (.fill a) s = .next t1 ∧ t1.current = some y1 ∧ y1.tx = x.tx ++ 0#32 :: A ∧
      exec (.fill b) t1 = .next t2 ∧ t2.current = some y2 ∧ y2.tx = y1.tx ++ 0#32 :: B ∧ y2.S = S2 ∧
      exec (.fill (a + b)) s = .next t3 ∧ t3.current = some y3 ∧ y3.tx = x.tx ++ 0#32 :: C ∧ y3.S = S3
  (∀ (a b : BitVec 24) (s : State) (x : Instance), s.current = some x → x.build.variant ≠ .X128SS_V →
    x.LIFE ≠ .UNSEEDED → x.S.fits x.build.variant = true → a.toNat + b.toNat < 2 ^ 24 →
    a.toNat % (x.build.variant.width / 8) = 0 →
    ∃ (A B C : List Word) (S' : StateReg), fills a b s x A B C S' S' ∧
      (beatBytes A).take a.toNat ++ (beatBytes B).take b.toNat = (beatBytes C).take (a.toNat + b.toNat)) ∧
  (∃ (a b : BitVec 24) (s : State) (x : Instance) (A B C : List Word) (S2 S3 : StateReg), s.current = some x ∧
    a.toNat + b.toNat < 2 ^ 24 ∧ a.toNat % (x.build.variant.width / 8) ≠ 0 ∧ fills a b s x A B C S2 S3 ∧
    (beatBytes A).take a.toNat ++ (beatBytes B).take b.toNat ≠ (beatBytes C).take (a.toNat + b.toNat))

/-- 20_memory.md R55: FILL of 8·k bytes sends the beats of k NEXT_U64 commands on every variant that has both; on the
xoroshiro variants NEXT_U32 returns the high half of the native word of which FILL of 4 bytes returns the low half. -/
def Obligations.FillOfWholeWords : Prop :=
  (∀ (k : Nat) (s : State) (x : Instance), s.current = some x → x.build.variant ≠ .X128SS_V → x.LIFE ≠ .UNSEEDED →
    x.S.fits x.build.variant = true → 8 * k < 2 ^ 24 →
    ∃ (pairs : List (Word × Word)) (S' : StateReg) (life : Life),
      pairs.length = k ∧
      exec (.fill (BitVec.ofNat 24 (8 * k))) s = .next (s.setCurrent
        { x with S := S', LIFE := life, tx := x.tx ++ 0#32 :: pairs.flatMap fun p => [p.1, p.2] }) ∧
      execAll (List.replicate k .nextU64) s = .next (s.setCurrent
        { x with S := S', LIFE := life, tx := x.tx ++ pairs.flatMap fun p => [0#32, p.1, p.2] })) ∧
  (∀ (s : State) (x : Instance), s.current = some x → isXR128 x.build.variant → x.LIFE ≠ .UNSEEDED →
    x.S.fits x.build.variant = true →
    ∃ (o : Word64) (S' : StateReg), outOf x.build.variant x.S = some (.w64 o) ∧
      exec .nextU32 s = .next (s.setCurrent
        { x with S := S', LIFE := .ADVANCING, tx := x.tx ++ [0#32, highHalf o] }) ∧
      exec (.fill 4#24) s = .next (s.setCurrent
        { x with S := S', LIFE := .ADVANCING, tx := x.tx ++ [0#32, lowHalf o] }))

/-! ### JUMP -/

/-- 45_jump.md R200-R203: JUMP replaces S by p(M)·S, the sum of the states j transitions ahead over the set bits j of the
jump polynomial, and sends no out-beat. -/
def Obligations.JumpFollowsThePolynomial : Prop :=
  (∀ (s : State) (x : Instance) (S : X128), s.current = some x → isX128 x.build.variant → x.LIFE ≠ .UNSEEDED →
    x.S = .x128 S →
    exec .jump s = .next (s.setCurrent
      { x with
        S := .x128 (polyX128 0x77f2db5b6fa035c3f542d2d38764000b#128 S)
        LIFE := .ADVANCING
        tx := x.tx ++ [0x00000000#32] })) ∧
  (∀ (s : State) (x : Instance) (S : XR128), s.current = some x → isXR128 x.build.variant → x.LIFE ≠ .UNSEEDED →
    x.S = .xr128 S →
    exec .jump s = .next (s.setCurrent
      { x with
        S := .xr128 (polyXR128 0x170865df4b3201fcdf900294d8f554a5#128 S)
        LIFE := .ADVANCING
        tx := x.tx ++ [0x00000000#32] }))

/-- JUMP is equivalent to 2^64 native steps (45_jump.md R204; `Config.jumpDistance` is 2^64). -/
def Obligations.JumpIsTwoToThe64Steps : Prop :=
  Config.jumpDistance = 18446744073709551616 ∧
  (∀ (s : State) (x : Instance) (S : X128), s.current = some x → isX128 x.build.variant → x.LIFE ≠ .UNSEEDED →
    x.S = .x128 S →
    exec .jump s = .next (s.setCurrent
      { x with S := .x128 (stepX128^[Config.jumpDistance] S), LIFE := .ADVANCING, tx := x.tx ++ [0x00000000#32] })) ∧
  (∀ (s : State) (x : Instance) (S : XR128), s.current = some x → isXR128 x.build.variant → x.LIFE ≠ .UNSEEDED →
    x.S = .xr128 S →
    exec .jump s = .next (s.setCurrent
      { x with S := .xr128 (stepXR128^[Config.jumpDistance] S), LIFE := .ADVANCING, tx := x.tx ++ [0x00000000#32] }))

/-- 45_jump.md R205: JUMP maps non-zero states to non-zero states, commutes with Step, two JUMPs are 2^65 steps, JUMP moves
every non-zero state, and a second JUMP moves it again; the all-zero xoshiro128 state stays. -/
def Obligations.JumpIsInvertibleAndNotIdempotent : Prop :=
  (∀ v, isX128 v → ∃ J : X128 → X128, (∀ S, jumpOf v (.x128 S) = some (.x128 (J S))) ∧
    Function.Bijective J ∧ (∀ S T, J (S.xor T) = (J S).xor (J T)) ∧
    (∀ S, S ≠ ⟨0, 0, 0, 0⟩ → J S ≠ ⟨0, 0, 0, 0⟩ ∧ J S ≠ S ∧ J (J S) ≠ J S) ∧
    (∀ S, J (stepX128 S) = stepX128 (J S)) ∧ (∀ S, J (J S) = stepX128^[2 * Config.jumpDistance] S) ∧
    J ⟨0, 0, 0, 0⟩ = ⟨0, 0, 0, 0⟩) ∧
  (∀ v, isXR128 v → ∃ J : XR128 → XR128, (∀ S, jumpOf v (.xr128 S) = some (.xr128 (J S))) ∧
    Function.Bijective J ∧ (∀ S T, J (S.xor T) = (J S).xor (J T)) ∧
    (∀ S, S ≠ ⟨0, 0⟩ → J S ≠ ⟨0, 0⟩ ∧ J S ≠ S ∧ J (J S) ≠ J S) ∧
    (∀ S, J (stepXR128 S) = stepXR128 (J S)) ∧ (∀ S, J (J S) = stepXR128^[2 * Config.jumpDistance] S))

/-- 45_jump.md R206: m JUMPs move a stream 2^64·m steps on, and of fewer than 2^64 streams so started from one non-zero state
no two meet in a state within their first 2^64 steps. -/
def Obligations.ParallelStreamsDoNotOverlap : Prop :=
  (∀ (s : State) (x : Instance) (S : X128) (m : Nat), s.current = some x → isX128 x.build.variant → x.LIFE ≠ .UNSEEDED →
    x.S = .x128 S →
    ∃ (t : State) (y : Instance), execAll (List.replicate m .jump) s = .next t ∧ t.current = some y ∧
      y.S = .x128 (stepX128^[m * Config.jumpDistance] S)) ∧
  (∀ (s : State) (x : Instance) (S : XR128) (m : Nat), s.current = some x → isXR128 x.build.variant → x.LIFE ≠ .UNSEEDED →
    x.S = .xr128 S →
    ∃ (t : State) (y : Instance), execAll (List.replicate m .jump) s = .next t ∧ t.current = some y ∧
      y.S = .xr128 (stepXR128^[m * Config.jumpDistance] S)) ∧
  (∀ (S : X128) (N a b i j : Nat), S ≠ ⟨0, 0, 0, 0⟩ → N < Config.jumpDistance → a < N → b < N → a ≠ b →
    i < Config.jumpDistance → j < Config.jumpDistance →
    stepX128^[a * Config.jumpDistance + i] S ≠ stepX128^[b * Config.jumpDistance + j] S) ∧
  (∀ (S : XR128) (N a b i j : Nat), S ≠ ⟨0, 0⟩ → N < Config.jumpDistance → a < N → b < N → a ≠ b →
    i < Config.jumpDistance → j < Config.jumpDistance →
    stepXR128^[a * Config.jumpDistance + i] S ≠ stepXR128^[b * Config.jumpDistance + j] S)

/-! ### Read-back -/

/-- 44_engine_commands.md R190: STATE_READ sends S in seed format and changes nothing. -/
def Obligations.StateReadSendsSeedFormat : Prop :=
  ∀ (s : State) (x : Instance), s.current = some x → x.LIFE ≠ .UNSEEDED →
    (∀ S : X128, isX128 x.build.variant → x.S = .x128 S →
      exec .stateRead s = .next (s.setCurrent { x with tx := x.tx ++ [0x00000000#32, S.s0, S.s1, S.s2, S.s3] })) ∧
    (∀ S : XR128, isXR128 x.build.variant → x.S = .xr128 S →
      exec .stateRead s = .next (s.setCurrent
        { x with tx := x.tx ++ [0x00000000#32, lowHalf S.s0, highHalf S.s0, lowHalf S.s1, highHalf S.s1] })) ∧
    (∀ t : Word64, x.build.variant = .SM64 → x.S = .sm64 t →
      exec .stateRead s = .next (s.setCurrent { x with tx := x.tx ++ [0x00000000#32, lowHalf t, highHalf t] })) ∧
    (∀ vs : BitVec 128, x.build.variant = .X128SS_V → x.build.hasLaneBlend = true → x.S = .vec vs →
      exec .stateRead s = .next (s.setCurrent
        { x with tx := x.tx ++ [0x00000000#32, vs.extractLsb' 0 32, vs.extractLsb' 32 32, vs.extractLsb' 64 32,
          vs.extractLsb' 96 32] }))

/-- 44_engine_commands.md R191: SEED with the out-beats of a STATE_READ, on an instance of the same variant that supports SEED,
is accepted and installs the same S. -/
def Obligations.CloneInstallsTheSameState : Prop :=
  ∀ (s t : State) (x z : Instance), s.current = some x → x.Inv → x.LIFE ≠ .UNSEEDED → t.current = some z →
    z.build.variant = x.build.variant → (z.build.variant = .X128SS_V → z.build.hasLaneBlend = true) →
    ∃ outs : List Word,
      exec .stateRead s = .next (s.setCurrent { x with tx := x.tx ++ 0x00000000#32 :: outs }) ∧
      exec (.seed outs) t = .next (t.setCurrent { z with S := x.S, LIFE := .SEEDED, tx := z.tx ++ [0x00000000#32] })

/-- 44_engine_commands.md R193: READ_STATUS, in every LIFE and on every variant, sends ZSF·4 + LIFE and changes nothing. -/
def Obligations.ReadStatusSendsStatus : Prop :=
  ∀ (s : State) (x : Instance), s.current = some x →
    exec .readStatus s = .next (s.setCurrent
      { x with tx := x.tx ++ [0x00000000#32, BitVec.ofNat 32 ((if x.ZSF then 1 else 0) * 4 +
        (if x.LIFE = .UNSEEDED then 0 else if x.LIFE = .SEEDED then 1 else 2))] })

/-- 44_engine_commands.md R195, 10_state.md R28: READ_CAP, in every LIFE and on every variant, sends the constant of the
variant and changes nothing. -/
def Obligations.ReadCapSendsTheConstant : Prop :=
  ∀ (s : State) (x : Instance) (cap : Word), s.current = some x →
    (x.build.variant, x.build.hasLaneBlend, cap) ∈ capTable →
    exec .readCap s = .next (s.setCurrent { x with tx := x.tx ++ [0x00000000#32, cap] })

/-! ### Rules about the whole machine -/

/-- 10_state.md R24: how LIFE changes, for every command and response, and on reset. (That a reset that stands first in the inputs
is the next step is the model's choice, assumption log 5 and 7.) -/
def Obligations.LifeTransitions : Prop :=
  (∀ (i : Instr) (s t : State) (x y : Instance), exec i s = .next t → s.current = some x → t.current = some y →
    ∃ (r : Resp) (outs : List Word), y.tx = x.tx ++ responseWord r :: outs ∧ y.LIFE = lifeAfter x.LIFE i r ∧
      (r = .OK → needsASeed i → x.LIFE ≠ .UNSEEDED)) ∧
  (∀ (s : State) (rest : List HostInput), s.inputs = .reset :: rest →
    ∃ t : State, step s = .next t ∧ ∀ y ∈ t.engines, y.LIFE = .UNSEEDED)

/-- 10_state.md R25: ZSF is set exactly by a SEED that is rejected as all-zero, which only XR128SS and XR128P do; no command
clears it; reset does. (That a reset that stands first in the inputs is the next step is the model's choice, assumption log
5 and 7.) -/
def Obligations.ZeroSeedFlagIsSticky : Prop :=
  (∀ (i : Instr) (s t : State) (x y : Instance), exec i s = .next t → s.current = some x → t.current = some y →
    (y.ZSF = true ↔
      x.ZSF = true ∨ (isXR128 x.build.variant ∧ i = .seed [0#32, 0#32, 0#32, 0#32])) ∧
    (y.tx = x.tx ++ [0x00000001#32] ↔ isXR128 x.build.variant ∧ i = .seed [0#32, 0#32, 0#32, 0#32])) ∧
  (∀ (s : State) (rest : List HostInput), s.inputs = .reset :: rest →
    ∃ t : State, step s = .next t ∧ ∀ y ∈ t.engines, y.ZSF = false)

/-- 60_exceptions.md R240: every command ends with exactly one response code; an error sends no out-beats and changes no state,
except ERR_ZERO_SEED with its stated effects. -/
def Obligations.ErrorsArePrecise : Prop :=
  ∀ (i : Instr) (s t : State) (x y : Instance), exec i s = .next t → s.current = some x → t.current = some y →
    ∃ (r : Resp) (outs : List Word), y.tx = x.tx ++ responseWord r :: outs ∧
      (∀ e : Err, r = .error e → outs = [] ∧
        (e ≠ .ZERO_SEED → y = { x with tx := x.tx ++ [responseWord r] }) ∧
        (e = .ZERO_SEED → y = { x with S := .bot, LIFE := .UNSEEDED, ZSF := true, tx := x.tx ++ [responseWord r] }))

/-- 30_encoding.md R77, R78, 60_exceptions.md R246: a response word is one of the five codes with its upper bits 0; OK is
followed by P_out out-beats and an error by none. -/
def Obligations.ResponseShape : Prop :=
  (∀ r : Resp, responseWord r = match r with
    | .OK => 0x00000000#32
    | .error .ZERO_SEED => 0x00000001#32
    | .error .UNSEEDED => 0x00000002#32
    | .error .ILLEGAL => 0x00000003#32
    | .error .UNSUPPORTED => 0x00000004#32) ∧
  ∀ (i : Instr) (s t : State) (x y : Instance), exec i s = .next t → s.current = some x → t.current = some y →
    ∃ (r : Resp) (outs : List Word), y.tx = x.tx ++ responseWord r :: outs ∧
      outs.length = if r = .OK then beatsOut x.build.variant i else 0

/-- The frame of every command: only the current instance changes, its build parameters and the words waiting on its port
stay, what it has already sent stays, and S stays unless the command is one of those that write it (00_scope.md R12;
10_state.md R20, R21; 20_memory.md R58; 60_exceptions.md R254). -/
def Obligations.FrameOfEveryCommand : Prop :=
  ∀ (i : Instr) (s t : State) (x y : Instance), exec i s = .next t → s.current = some x → t.current = some y →
    t.cur = s.cur ∧ t.inputs = s.inputs ∧ t.engines.length = s.engines.length ∧
    (∀ e, e ≠ s.cur → t.engines[e]? = s.engines[e]?) ∧
    y.build = x.build ∧ y.rx = x.rx ∧ (∃ sent, y.tx = x.tx ++ sent) ∧
    (¬ writesState i → y.S = x.S ∧ y.LIFE = x.LIFE ∧ y.ZSF = x.ZSF) ∧
    (i = .fill 0#24 → y.S = x.S ∧ y.LIFE = x.LIFE ∧ y.ZSF = x.ZSF)

/-- Commands to two different instances give the same result in either order (20_memory.md R60). -/
def Obligations.InstancesCommute : Prop :=
  ∀ (i j : Instr) (e f : Nat) (s s1 s2 : State), e ≠ f →
    exec i { s with cur := e } = .next s1 → exec j { s with cur := f } = .next s2 →
    ∃ t1 t2 : State, exec j { s1 with cur := f } = .next t1 ∧ exec i { s2 with cur := e } = .next t2 ∧
      t1.engines = t2.engines

/-- Two instances of one build whose SEED or SEED_U64 with the same operand was accepted answer every further sequence of
commands alike (44_engine_commands.md R198; that their ZSF is equal is needed because READ_STATUS shows it, assumption log
15). -/
def Obligations.EqualSeedsGiveEqualStreams : Prop :=
  ∀ (i : Instr) (cmds : List Instr) (s t s1 t1 s2 : State) (x y x1 y1 : Instance),
    ((∃ beats, i = .seed beats) ∨ ∃ v, i = .seedU64 v) →
    s.current = some x → t.current = some y → x.build = y.build → x.ZSF = y.ZSF → x.tx = y.tx →
    exec i s = .next s1 → exec i t = .next t1 → s1.current = some x1 → t1.current = some y1 →
    x1.tx = x.tx ++ [0x00000000#32] →
    execAll cmds s1 = .next s2 →
    ∃ (t2 : State) (x2 y2 : Instance), execAll cmds t1 = .next t2 ∧ s2.current = some x2 ∧ t2.current = some y2 ∧
      sameStream x2 y2

/-- 46_simd.md R223: a vector unit with the lane blend and an X128SS instance that accept the same SEED answer every number of
NEXT_U32, and a STATE_READ after them, alike. -/
def Obligations.ScalarVectorEquivalence : Prop :=
  ∀ (k : Nat) (beats : List Word) (s t : State) (x y : Instance),
    s.current = some x → x.build.variant = .X128SS → t.current = some y → y.build.variant = .X128SS_V →
    y.build.hasLaneBlend = true → beats.length = 4 →
    ∃ (s' t' : State) (x' y' : Instance) (sent : List Word),
      execAll (.seed beats :: (List.replicate k .nextU32 ++ [.stateRead])) s = .next s' ∧ s'.current = some x' ∧
      execAll (.seed beats :: (List.replicate k .nextU32 ++ [.stateRead])) t = .next t' ∧ t'.current = some y' ∧
      x'.tx = x.tx ++ sent ∧ y'.tx = y.tx ++ sent
end

