-- ==== Sys2Proof/Laws/Decode.lean ====
section
/-! SUPPORT. The fields of a command word, and the words a command's transaction takes. -/

namespace Sys2Proof

/-- Bit i of a placed value. -/
theorem getLsbD_place (w lsb : Nat) {n : Nat} (x : BitVec n) (i : Nat) :
    (place w lsb x).getLsbD i = (decide (i < w) && decide (lsb ≤ i) && x.getLsbD (i - lsb)) := by
  simp only [place, BitVec.getLsbD_shiftLeft, BitVec.getLsbD_setWidth]
  by_cases h1 : i < w <;> by_cases h2 : lsb ≤ i <;> simp [h1, h2, show i < lsb ↔ ¬ lsb ≤ i by omega]
  intro _
  omega

@[simp] theorem opcField_commandWord (opc : BitVec 8) (len : BitVec 24) : opcField (commandWord opc len) = opc := by
  refine BitVec.eq_of_getLsbD_eq fun i hi => ?_
  simp [opcField, commandWord, getLsbD_place, hi, show i < 32 by omega, show ¬ 8 ≤ i by omega, -BitVec.getLsbD_eq_getElem]

@[simp] theorem lenField_commandWord (opc : BitVec 8) (len : BitVec 24) : lenField (commandWord opc len) = len := by
  refine BitVec.eq_of_getLsbD_eq fun i hi => ?_
  simp [lenField, commandWord, getLsbD_place, hi, show 8 + i < 32 by omega, -BitVec.getLsbD_eq_getElem]

/-- A command word is its two fields. -/
theorem commandWord_fields (cw : Word) : commandWord (opcField cw) (lenField cw) = cw := by
  refine BitVec.eq_of_getLsbD_eq fun i hi => ?_
  by_cases h : 8 ≤ i
  · simp [commandWord, opcField, lenField, getLsbD_place, hi, h, show 8 + (i - 8) = i by omega,
      show i - 8 < 24 by omega, -BitVec.getLsbD_eq_getElem]
  · simp [commandWord, opcField, lenField, getLsbD_place, hi, h, show i < 8 by omega, -BitVec.getLsbD_eq_getElem]

@[simp] theorem low32_concat (hi lo : Word) : low32 (concat hi lo) = lo := by
  refine BitVec.eq_of_getLsbD_eq fun i h => ?_
  simp [low32, concat, getLsbD_place, h, show i < 64 by omega, show ¬ 32 ≤ i by omega, -BitVec.getLsbD_eq_getElem]

@[simp] theorem high32_concat (hi lo : Word) : high32 (concat hi lo) = hi := by
  refine BitVec.eq_of_getLsbD_eq fun i h => ?_
  simp [high32, concat, getLsbD_place, h, show 32 + i < 64 by omega, -BitVec.getLsbD_eq_getElem]

/-- A 64-bit value is its two halves. -/
theorem concat_halves (v : Word64) : concat (high32 v) (low32 v) = v := by
  refine BitVec.eq_of_getLsbD_eq fun i hi => ?_
  by_cases h : 32 ≤ i
  · simp [concat, high32, low32, getLsbD_place, hi, h, show 32 + (i - 32) = i by omega,
      show i - 32 < 32 by omega, -BitVec.getLsbD_eq_getElem]
  · simp [concat, high32, low32, getLsbD_place, hi, h, show i < 32 by omega, -BitVec.getLsbD_eq_getElem]

@[simp] theorem opcodeOf_code (o : Opcode) : opcodeOf o.code = some o := by cases o <;> rfl

/-- An assigned operation code is the number of its command. -/
theorem opcodeOf_eq_some_iff {b : BitVec 8} {o : Opcode} : opcodeOf b = some o ↔ b = o.code := by
  have h : ∀ b : BitVec 8, opcodeOf b = some o ↔ b = o.code := by cases o <;> decide
  exact h b

@[simp] theorem frameBeats_commandWord (v : Variant) (o : Opcode) (len : BitVec 24) :
    frameBeats v (commandWord o.code len) = inBeats v o := by
  simp [frameBeats]

/-- The first word of a command is the command word of its operation code. -/
theorem encode_head {i : Instr} {cw : Word} {ws : List Word} (h : encode i = cw :: ws) :
    ∃ len, cw = commandWord i.opcode.code len := by
  cases i <;> (injection h with h; exact ⟨_, h.symm⟩)

end Sys2Proof
end

