-- ==== Sys2Proof/Laws/State.lean ====
section
/-! SUPPORT. One lemma per field of each update of an instance or of the XCORE, so that no proof unfolds one. -/

namespace Sys2Proof.Machine

section Respond
variable (x : Instance) (outs : List Word)
@[simp] theorem respond_build : (x.respond outs).build = x.build := rfl
@[simp] theorem respond_S : (x.respond outs).S = x.S := rfl
@[simp] theorem respond_LIFE : (x.respond outs).LIFE = x.LIFE := rfl
@[simp] theorem respond_ZSF : (x.respond outs).ZSF = x.ZSF := rfl
@[simp] theorem respond_rx : (x.respond outs).rx = x.rx := rfl
@[simp] theorem respond_tx : (x.respond outs).tx = x.tx ++ responseWord .OK :: outs := rfl
end Respond

section Raise
variable (x : Instance) (e : Err)
@[simp] theorem raise_build : (x.raise e).build = x.build := by cases e <;> rfl
@[simp] theorem raise_rx : (x.raise e).rx = x.rx := by cases e <;> rfl
@[simp] theorem raise_tx : (x.raise e).tx = x.tx ++ [responseWord (.error e)] := by cases e <;> rfl
@[simp] theorem raise_S : (x.raise e).S = if e = .ZERO_SEED then .bot else x.S := by cases e <;> rfl
@[simp] theorem raise_LIFE : (x.raise e).LIFE = if e = .ZERO_SEED then .UNSEEDED else x.LIFE := by cases e <;> rfl
@[simp] theorem raise_ZSF : (x.raise e).ZSF = if e = .ZERO_SEED then true else x.ZSF := by cases e <;> rfl
end Raise

section Accept
variable (x : Instance) (T : StateReg)
@[simp] theorem accept_build : (x.accept T).build = x.build := rfl
@[simp] theorem accept_S : (x.accept T).S = T := rfl
@[simp] theorem accept_LIFE : (x.accept T).LIFE = .SEEDED := rfl
@[simp] theorem accept_ZSF : (x.accept T).ZSF = x.ZSF := rfl
@[simp] theorem accept_rx : (x.accept T).rx = x.rx := rfl
@[simp] theorem accept_tx : (x.accept T).tx = x.tx ++ [responseWord .OK] := rfl
end Accept

section Advance
variable (x : Instance) (T : StateReg) (outs : List Word)
@[simp] theorem advance_build : (x.advance T outs).build = x.build := rfl
@[simp] theorem advance_S : (x.advance T outs).S = T := rfl
@[simp] theorem advance_LIFE : (x.advance T outs).LIFE = .ADVANCING := rfl
@[simp] theorem advance_ZSF : (x.advance T outs).ZSF = x.ZSF := rfl
@[simp] theorem advance_rx : (x.advance T outs).rx = x.rx := rfl
@[simp] theorem advance_tx : (x.advance T outs).tx = x.tx ++ responseWord .OK :: outs := rfl
end Advance

section SetCurrent
variable (s : State) (x : Instance)
@[simp] theorem setCurrent_engines : (s.setCurrent x).engines = s.engines.set s.cur x := rfl
@[simp] theorem setCurrent_cur : (s.setCurrent x).cur = s.cur := rfl
@[simp] theorem setCurrent_inputs : (s.setCurrent x).inputs = s.inputs := rfl

theorem setCurrent_other {e : Nat} (h : e ≠ s.cur) : (s.setCurrent x).engines[e]? = s.engines[e]? := by
  simp [List.getElem?_set_ne (Ne.symm h)]

theorem current_lt {y : Instance} (h : s.current = some y) : s.cur < s.engines.length :=
  (List.getElem?_eq_some_iff.mp h).1

theorem current_setCurrent {y : Instance} (h : s.current = some y) : (s.setCurrent x).current = some x := by
  simp [State.current, current_lt s h]

@[simp] theorem setCurrent_setCurrent (y : Instance) : (s.setCurrent x).setCurrent y = s.setCurrent y := by
  simp [State.setCurrent]
end SetCurrent

section Serve
variable (s : State) (e : Nat) (x : Instance) (rest : List Word)
@[simp] theorem serve_cur : (s.serve e x rest).cur = e := rfl
@[simp] theorem serve_inputs : (s.serve e x rest).inputs = s.inputs := rfl
@[simp] theorem serve_engines : (s.serve e x rest).engines = s.engines.set e { x with rx := rest } := rfl

theorem serve_current (h : s.engines[e]? = some x) : (s.serve e x rest).current = some { x with rx := rest } := by
  have := (List.getElem?_eq_some_iff.mp h).1
  simp [State.current, this]
end Serve

section Reset
@[simp] theorem reset_build (b : Build) : (Instance.reset b).build = b := rfl
@[simp] theorem reset_S (b : Build) : (Instance.reset b).S = .bot := rfl
@[simp] theorem reset_LIFE (b : Build) : (Instance.reset b).LIFE = .UNSEEDED := rfl
@[simp] theorem reset_ZSF (b : Build) : (Instance.reset b).ZSF = false := rfl
@[simp] theorem resetOf_engines (bs : List Build) : (State.resetOf bs).engines = bs.map Instance.reset := rfl
@[simp] theorem resetOf_cur (bs : List Build) : (State.resetOf bs).cur = 0 := rfl
@[simp] theorem resetOf_inputs (bs : List Build) : (State.resetOf bs).inputs = [] := rfl
end Reset

end Sys2Proof.Machine
end

