-- ==== Sys2Proof/Laws/Kernels.lean ====
section
/-! SUPPORT. The native step: when it exists, and how a sequence of native steps is put together. -/

namespace Sys2Proof.Machine

/-- The native step exists exactly when S holds the words of the variant. -/
theorem nativeStep_isSome (v : Variant) (S : StateReg) : (nativeStep v S).isSome = S.fits v := by
  cases v <;> cases S <;> rfl

theorem stepOf_isSome (v : Variant) (S : StateReg) : (stepOf v S).isSome = S.fits v := by
  cases v <;> cases S <;> rfl

theorem outOf_isSome (v : Variant) (S : StateReg) : (outOf v S).isSome = S.fits v := by
  cases v <;> cases S <;> rfl

theorem stateBytes_isSome (v : Variant) (S : StateReg) : (stateBytes v S).isSome = S.fits v := by
  cases v <;> cases S <;> rfl

/-- JUMP's state exists exactly when the variant has JUMP and S holds its words. -/
theorem jumpOf_isSome (v : Variant) (S : StateReg) : (jumpOf v S).isSome = (v.hasJump && S.fits v) := by
  cases v <;> cases S <;> rfl

theorem nativeStep_eq_some_iff {v : Variant} {S S' : StateReg} {o : OutWord} :
    nativeStep v S = some (o, S') ↔ outOf v S = some o ∧ stepOf v S = some S' := by
  unfold nativeStep
  cases outOf v S <;> cases stepOf v S <;> simp

/-- A transition keeps the register in the variant's shape. -/
theorem stepOf_fits {v : Variant} {S S' : StateReg} (h : stepOf v S = some S') : S'.fits v = true := by
  cases v <;> cases S <;> simp_all [stepOf] <;> subst h <;> rfl

/-- JUMP keeps the register in the variant's shape. -/
theorem jumpOf_fits {v : Variant} {S S' : StateReg} (h : jumpOf v S = some S') : S'.fits v = true := by
  cases v <;> cases S <;> simp_all [jumpOf] <;> subst h <;> rfl

/-- The state a seed decodes to has the variant's shape. -/
theorem decodeSeed_fits {v : Variant} {beats : List Word} {T : StateReg} (h : decodeSeed v beats = some T) :
    T.fits v = true := by
  unfold decodeSeed at h
  split at h
  · cases v <;> simp_all [seedState] <;> subst h <;> rfl
  · simp at h

theorem extract_succ_eq_some_iff {v : Variant} {k : Nat} {S S2 : StateReg} {os : List OutWord} :
    extract v (k + 1) S = some (os, S2) ↔
      ∃ o S1 os', nativeStep v S = some (o, S1) ∧ extract v k S1 = some (os', S2) ∧ os = o :: os' := by
  simp only [extract]
  rcases nativeStep v S with _ | ⟨o, S1⟩
  · simp
  · rcases h' : extract v k S1 with _ | ⟨os', S3⟩
    · simp only [h', reduceCtorEq, false_iff]
      rintro ⟨o', S1', os', h1, h2, -⟩
      simp only [Option.some.injEq, Prod.mk.injEq] at h1
      simp [← h1.2, h'] at h2
    · simp only [h', Option.some.injEq, Prod.mk.injEq]
      constructor
      · rintro ⟨rfl, rfl⟩
        exact ⟨o, S1, os', ⟨rfl, rfl⟩, h', rfl⟩
      · rintro ⟨o', S1', os'', ⟨rfl, rfl⟩, h2, rfl⟩
        simpa [h', and_comm] using h2

/-- k native steps give k outputs. -/
theorem extract_length {v : Variant} {k : Nat} {S S' : StateReg} {os : List OutWord}
    (h : extract v k S = some (os, S')) : os.length = k := by
  induction k generalizing S os with
  | zero => simp [extract] at h; simp [← h.1]
  | succ k ih =>
    obtain ⟨o, S1, os', -, h', rfl⟩ := extract_succ_eq_some_iff.mp h
    simp [ih h']

/-- From the words of the variant every number of native steps can be taken. -/
theorem extract_total {v : Variant} (k : Nat) {S : StateReg} (hS : S.fits v = true) :
    ∃ os S', extract v k S = some (os, S') ∧ S'.fits v = true := by
  induction k generalizing S with
  | zero => exact ⟨[], S, rfl, hS⟩
  | succ k ih =>
    obtain ⟨⟨o, S1⟩, h1⟩ := Option.isSome_iff_exists.mp ((nativeStep_isSome v S).trans hS)
    obtain ⟨os, S', h2, hf⟩ := ih (stepOf_fits (nativeStep_eq_some_iff.mp h1).2)
    exact ⟨o :: os, S', extract_succ_eq_some_iff.mpr ⟨o, S1, os, h1, h2, rfl⟩, hf⟩

/-- A sequence of native steps ends k transitions ahead, and its outputs are those of the steps in order. -/
theorem extract_stream {v : Variant} {k : Nat} {S S' : StateReg} {os : List OutWord}
    (h : extract v k S = some (os, S')) :
    stateAfter v k S = some S' ∧ ∀ j < k, os[j]? = outputAt v j S := by
  induction k generalizing S os with
  | zero =>
    simp only [extract, Option.some.injEq, Prod.mk.injEq] at h
    exact ⟨by simp [stateAfter, h.2], fun j hj => absurd hj (Nat.not_lt_zero j)⟩
  | succ k ih =>
    obtain ⟨o, S1, os', h1, h2, rfl⟩ := extract_succ_eq_some_iff.mp h
    obtain ⟨ho, hs⟩ := nativeStep_eq_some_iff.mp h1
    obtain ⟨hS, hos⟩ := ih h2
    refine ⟨by simp [stateAfter, hs, hS], fun j hj => ?_⟩
    cases j with
    | zero => simp [outputAt, stateAfter, ho]
    | succ j => simpa [outputAt, stateAfter, hs] using hos j (by omega)

end Sys2Proof.Machine
end

