-- ==== Sys2Proof/Laws/Operands.lean ====
section
/-! SUPPORT. The byte order: beats to bytes and back, and the state words of a seed. -/

namespace Sys2Proof.Machine

@[simp] theorem leBytes_length {w : Nat} (v : BitVec w) : (leBytes v).length = w / 8 := by simp [leBytes]

/-- The four bytes of a beat. -/
theorem leBytes_word (v : Word) :
    leBytes v = [v.extractLsb' 0 8, v.extractLsb' 8 8, v.extractLsb' 16 8, v.extractLsb' 24 8] := rfl

/-- The eight bytes of a 64-bit word. -/
theorem leBytes_word64 (v : Word64) :
    leBytes v = [v.extractLsb' 0 8, v.extractLsb' 8 8, v.extractLsb' 16 8, v.extractLsb' 24 8,
      v.extractLsb' 32 8, v.extractLsb' 40 8, v.extractLsb' 48 8, v.extractLsb' 56 8] := rfl

/-- LE_word_32 inverts LE_bytes_32. -/
theorem leWord_leBytes_word (v : Word) : leWord 32 (leBytes v) = v := by
  rw [leBytes_word]
  ext i hi
  simp only [leWord, BitVec.getElem_or, BitVec.getElem_shiftLeft, BitVec.getElem_setWidth]
  interval_cases i <;> simp

/-- LE_word_64 inverts LE_bytes_64. -/
theorem leWord_leBytes_word64 (v : Word64) : leWord 64 (leBytes v) = v := by
  rw [leBytes_word64]
  ext i hi
  simp only [leWord, BitVec.getElem_or, BitVec.getElem_shiftLeft, BitVec.getElem_setWidth]
  interval_cases i <;> simp

theorem beatBytes_cons (b : Word) (bs : List Word) : beatBytes (b :: bs) = leBytes b ++ beatBytes bs := by
  simp [beatBytes]

@[simp] theorem beatBytes_length (bs : List Word) : (beatBytes bs).length = 4 * bs.length := by
  induction bs with
  | nil => rfl
  | cons b bs ih => simp [beatBytes_cons, ih]; omega

/-- Packing the bytes of whole beats gives the beats back. -/
theorem packBeats_beatBytes (bs : List Word) : packBeats (beatBytes bs) = bs := by
  induction bs with
  | nil => rfl
  | cons b bs ih =>
    rw [beatBytes_cons, leBytes_word]
    simp only [List.cons_append, List.nil_append, packBeats, ih]
    rw [← leBytes_word, leWord_leBytes_word]

/-- P_out of a byte sequence: ceil(length/4) beats. -/
theorem packBeats_length (bytes : List Byte) : (packBeats bytes).length = (bytes.length + 3) / 4 := by
  induction bytes using packBeats.induct with
  | case1 | case2 | case3 | case4 => simp [packBeats]
  | case5 b0 b1 b2 b3 rest ih => simp [packBeats, ih]; omega

/-! ### The state words of a seed -/

/-- The bytes of the beats from beat i on. -/
theorem drop_beatBytes (beats : List Word) (i : Nat) : (beatBytes beats).drop (4 * i) = beatBytes (beats.drop i) := by
  induction i generalizing beats with
  | zero => rfl
  | succ i ih =>
    cases beats with
    | nil => simp [beatBytes]
    | cons b bs =>
      rw [beatBytes_cons, leBytes_word, show 4 * (i + 1) = 4 * i + 4 by omega]
      simpa using ih bs

/-- A 32-bit state word is one beat. -/
theorem seedWord_word (beats : List Word) (i : Nat) (b : Word) (h : beats[i]? = some b) :
    seedWord 32 (beatBytes beats) i = b := by
  obtain ⟨hi, rfl⟩ := List.getElem?_eq_some_iff.mp h
  rw [seedWord, show i * (32 / 8) = 4 * i by omega, drop_beatBytes, List.drop_eq_getElem_cons hi, beatBytes_cons,
    List.take_append_of_le_length (by simp), List.take_of_length_le (by simp), leWord_leBytes_word]

/-- The bytes of a 64-bit value are the bytes of its two beats, low half first. -/
theorem leBytes_concat (hi lo : Word) : leBytes (concat hi lo) = leBytes lo ++ leBytes hi := by
  rw [leBytes_word64, leBytes_word, leBytes_word]
  simp only [List.cons_append, List.nil_append, List.cons.injEq, and_true]
  refine ⟨?_, ?_, ?_, ?_, ?_, ?_, ?_, ?_⟩ <;> refine BitVec.eq_of_getLsbD_eq fun i h => ?_ <;>
    interval_cases i <;> simp [concat, getLsbD_place, -BitVec.getLsbD_eq_getElem]

/-- A 64-bit state word is two beats, low half first. -/
theorem seedWord_word64 (beats : List Word) (i : Nat) (lo hi : Word) (hl : beats[2 * i]? = some lo)
    (hh : beats[2 * i + 1]? = some hi) : seedWord 64 (beatBytes beats) i = concat hi lo := by
  obtain ⟨h0, rfl⟩ := List.getElem?_eq_some_iff.mp hl
  obtain ⟨h1, rfl⟩ := List.getElem?_eq_some_iff.mp hh
  rw [seedWord, show i * (64 / 8) = 4 * (2 * i) by omega, drop_beatBytes, List.drop_eq_getElem_cons h0,
    List.drop_eq_getElem_cons h1, beatBytes_cons, beatBytes_cons, ← List.append_assoc, ← leBytes_concat,
    List.take_append_of_le_length (by simp), List.take_of_length_le (by simp), leWord_leBytes_word64]

/-! ### Lanes -/

theorem getLsbD_lane (vs : BitVec 128) (k i : Nat) (h : i < 32) : (lane vs k).getLsbD i = vs.getLsbD (32 * k + i) := by
  simp [lane, h, -BitVec.getLsbD_eq_getElem]

theorem getLsbD_ofLanes (a b c d : Word) (i : Nat) (h : i < 128) :
    (ofLanes a b c d).getLsbD i =
      if i < 32 then a.getLsbD i else if i < 64 then b.getLsbD (i - 32)
      else if i < 96 then c.getLsbD (i - 64) else d.getLsbD (i - 96) := by
  simp only [ofLanes, BitVec.getLsbD_or, getLsbD_place, h, decide_true, Bool.true_and]
  have out : ∀ (x : Word) (j : Nat), 32 ≤ j → x.getLsbD j = false := fun x j hj => BitVec.getLsbD_of_ge x j hj
  split_ifs with h0 h1 h2
  · simp [show ¬ 32 ≤ i by omega, show ¬ 64 ≤ i by omega, show ¬ 96 ≤ i by omega, -BitVec.getLsbD_eq_getElem]
  · simp [show 32 ≤ i by omega, show ¬ 64 ≤ i by omega, show ¬ 96 ≤ i by omega,
      -BitVec.getLsbD_eq_getElem]
  · simp [out a i (by omega), out b (i - 32) (by omega), show 64 ≤ i by omega, show ¬ 96 ≤ i by omega,
      -BitVec.getLsbD_eq_getElem]
  · simp [out a i (by omega), out b (i - 32) (by omega), out c (i - 64) (by omega), show 96 ≤ i by omega,
      -BitVec.getLsbD_eq_getElem]

/-- The lanes of a register made from four words are the words. -/
@[simp] theorem lanesOf_ofLanes (a b c d : Word) : lanesOf (ofLanes a b c d) = ⟨a, b, c, d⟩ := by
  simp only [lanesOf, X128.mk.injEq]
  refine ⟨?_, ?_, ?_, ?_⟩ <;> refine BitVec.eq_of_getLsbD_eq fun i h => ?_ <;>
    rw [getLsbD_lane _ _ _ h, getLsbD_ofLanes _ _ _ _ _ (by omega)]
  · simp [h, -BitVec.getLsbD_eq_getElem]
  · simp [show 32 + i < 64 by omega, -BitVec.getLsbD_eq_getElem]
  · simp [show ¬ 64 + i < 32 by omega, show 64 + i < 96 by omega, -BitVec.getLsbD_eq_getElem]
  · simp [show ¬ 96 + i < 32 by omega, show ¬ 96 + i < 64 by omega, -BitVec.getLsbD_eq_getElem]

/-- A register is made of its lanes. -/
@[simp] theorem toLanes_lanesOf (vs : BitVec 128) : toLanes (lanesOf vs) = vs := by
  refine BitVec.eq_of_getLsbD_eq fun i h => ?_
  rw [toLanes, lanesOf, getLsbD_ofLanes _ _ _ _ _ h]
  split_ifs with h0 h1 h2
  · simp [getLsbD_lane vs 0 i h0, -BitVec.getLsbD_eq_getElem]
  · simp [getLsbD_lane vs 1 (i - 32) (by omega), show 32 + (i - 32) = i by omega, -BitVec.getLsbD_eq_getElem]
  · simp [getLsbD_lane vs 2 (i - 64) (by omega), show 64 + (i - 64) = i by omega, -BitVec.getLsbD_eq_getElem]
  · simp [getLsbD_lane vs 3 (i - 96) (by omega), show 96 + (i - 96) = i by omega, -BitVec.getLsbD_eq_getElem]

end Sys2Proof.Machine
end

