-- ==== Sys2Proof/Laws/Ops.lean ====
section
/-! SUPPORT. What each shared operation can do: the common checks, a command on its instance, a command on the XCORE. -/

namespace Sys2Proof.Machine

theorem failedCheck_eq_none_iff {o : Opcode} {x : Instance} :
    failedCheck o x = none ↔ supported x.build o = true ∧ (needsSeed o = true → x.LIFE ≠ .UNSEEDED) := by
  unfold failedCheck
  cases supported x.build o <;> cases needsSeed o <;> by_cases h : x.LIFE = .UNSEEDED <;> simp [h]

theorem failedCheck_eq_some_iff {o : Opcode} {x : Instance} {e : Err} :
    failedCheck o x = some e ↔
      (e = .UNSUPPORTED ∧ supported x.build o = false) ∨
      (e = .UNSEEDED ∧ supported x.build o = true ∧ needsSeed o = true ∧ x.LIFE = .UNSEEDED) := by
  unfold failedCheck
  cases supported x.build o <;> cases needsSeed o <;> by_cases h : x.LIFE = .UNSEEDED <;> simp [h, eq_comm]

/-- A command ends in its failed check's error or in its own rule's ending. -/
theorem command_eq_next_iff {o : Opcode} {rule : Instance → Ending} {x y : Instance} :
    command o rule x = .next y ↔
      (∃ e, failedCheck o x = some e ∧ y = x.raise e) ∨ (failedCheck o x = none ∧ rule x = .next y) := by
  unfold command
  cases h : failedCheck o x <;> simp [eq_comm]

theorem command_of_checked {o : Opcode} {rule : Instance → Ending} {x : Instance} (h : failedCheck o x = none) :
    command o rule x = rule x := by
  simp [command, h]

theorem command_of_failed {o : Opcode} {rule : Instance → Ending} {x : Instance} {e : Err}
    (h : failedCheck o x = some e) : command o rule x = .next (x.raise e) := by
  simp [command, h]

/-- A command on the XCORE replaces the current instance by what the command makes of it, and nothing else. -/
theorem onCurrent_eq_next_iff {s t : State} {f : Instance → Ending} :
    onCurrent s f = .next t ↔ ∃ x y, s.current = some x ∧ f x = .next y ∧ t = s.setCurrent y := by
  unfold onCurrent
  cases h : s.current with
  | none => simp
  | some x => cases hf : f x <;> simp [hf, eq_comm]

theorem onCurrent_of_next {s : State} {f : Instance → Ending} {x y : Instance} (h : s.current = some x)
    (hf : f x = .next y) : onCurrent s f = .next (s.setCurrent y) :=
  onCurrent_eq_next_iff.mpr ⟨x, y, h, hf, rfl⟩

/-- The rule of each command on its own instance. -/
def ruleOf : Instr → Instance → Ending
  | .seed beats => seedRule beats
  | .seedU64 v => seedU64Rule v
  | .nextU32 => nextU32Rule
  | .nextU64 => nextU64Rule
  | .fill len => fillRule len
  | .jump => jumpRule
  | .stateRead => stateReadRule
  | .readStatus => readStatusRule
  | .readCap => readCapRule

/-- Every command is the common checks and its rule, on the current instance. -/
theorem exec_eq (i : Instr) (s : State) : exec i s = onCurrent s (command i.opcode (ruleOf i)) := by
  cases i <;> rfl

/-- What exec can answer with: the current instance ended with a failed check, or with its own rule. -/
theorem exec_eq_next_iff {i : Instr} {s t : State} :
    exec i s = .next t ↔
      ∃ x y, s.current = some x ∧ t = s.setCurrent y ∧
        ((∃ e, failedCheck i.opcode x = some e ∧ y = x.raise e) ∨
         (failedCheck i.opcode x = none ∧ ruleOf i x = .next y)) := by
  rw [exec_eq, onCurrent_eq_next_iff]
  constructor
  · rintro ⟨x, y, hx, hc, rfl⟩
    exact ⟨x, y, hx, rfl, command_eq_next_iff.mp hc⟩
  · rintro ⟨x, y, hx, rfl, hc⟩
    exact ⟨x, y, hx, command_eq_next_iff.mpr hc, rfl⟩

theorem exec_of_rule {i : Instr} {s : State} {x y : Instance} (hx : s.current = some x)
    (hc : failedCheck i.opcode x = none) (hr : ruleOf i x = .next y) : exec i s = .next (s.setCurrent y) :=
  exec_eq_next_iff.mpr ⟨x, y, hx, rfl, .inr ⟨hc, hr⟩⟩

theorem exec_of_failed {i : Instr} {s : State} {x : Instance} {e : Err} (hx : s.current = some x)
    (hc : failedCheck i.opcode x = some e) : exec i s = .next (s.setCurrent (x.raise e)) :=
  exec_eq_next_iff.mpr ⟨x, _, hx, rfl, .inl ⟨e, hc, rfl⟩⟩

/-! ### What each rule can answer with -/

theorem seedRule_eq_next_iff {beats : List Word} {x y : Instance} :
    seedRule beats x = .next y ↔
      ∃ T, decodeSeed x.build.variant beats = some T ∧
        ((zeroSeed x.build.variant T = true ∧ y = x.raise .ZERO_SEED) ∨
         (zeroSeed x.build.variant T = false ∧ y = x.accept T)) := by
  unfold seedRule
  rcases decodeSeed x.build.variant beats with _ | T
  · simp
  · cases hz : zeroSeed x.build.variant T <;> simp [hz, eq_comm (a := y)]

theorem nextU32Rule_eq_next_iff {x y : Instance} :
    nextU32Rule x = .next y ↔
      ∃ o S', nativeStep x.build.variant x.S = some (o, S') ∧ y = x.advance S' [narrow x.build.variant o] := by
  unfold nextU32Rule
  rcases nativeStep x.build.variant x.S with _ | ⟨o, S'⟩ <;> simp [and_assoc, eq_comm (a := y)]

theorem nextU64Rule_eq_next_iff {x y : Instance} :
    nextU64Rule x = .next y ↔
      ∃ os S' r, extract x.build.variant (steps64 x.build.variant) x.S = some (os, S') ∧ widen os = some r ∧
        y = x.advance S' (beats64 r) := by
  unfold nextU64Rule
  rcases extract x.build.variant (steps64 x.build.variant) x.S with _ | ⟨os, S'⟩
  · simp
  · cases hw : widen os <;> simp [hw, and_assoc, eq_comm (a := y)]

theorem fillRule_eq_next_iff {len : BitVec 24} {x y : Instance} :
    fillRule len x = .next y ↔
      ∃ os S', extract x.build.variant (fillSteps x.build.variant len.toNat) x.S = some (os, S') ∧
        ((len = 0#24 ∧ y = x.respond []) ∨ (len ≠ 0#24 ∧ y = x.advance S' (packBeats (fillBytes os len.toNat)))) := by
  unfold fillRule
  rcases extract x.build.variant (fillSteps x.build.variant len.toNat) x.S with _ | ⟨os, S'⟩
  · simp
  · dsimp only
    split_ifs with h <;> simp [h, and_assoc, eq_comm (a := y)]

theorem jumpRule_eq_next_iff {x y : Instance} :
    jumpRule x = .next y ↔ ∃ S', jumpOf x.build.variant x.S = some S' ∧ y = x.advance S' [] := by
  unfold jumpRule
  rcases jumpOf x.build.variant x.S with _ | S' <;> simp [eq_comm (a := y)]

theorem stateReadRule_eq_next_iff {x y : Instance} :
    stateReadRule x = .next y ↔
      ∃ bytes, stateBytes x.build.variant x.S = some bytes ∧ y = x.respond (packBeats bytes) := by
  unfold stateReadRule
  rcases stateBytes x.build.variant x.S with _ | bytes <;> simp [eq_comm (a := y)]

/-! ### Sequences of commands -/

@[simp] theorem execAll_nil (s : State) : execAll [] s = .next s := rfl

theorem execAll_cons {i : Instr} {is : List Instr} {s t : State} (h : exec i s = .next t) :
    execAll (i :: is) s = execAll is t := by
  simp [execAll, h]

theorem execAll_cons_eq_next_iff {i : Instr} {is : List Instr} {s u : State} :
    execAll (i :: is) s = .next u ↔ ∃ t, exec i s = .next t ∧ execAll is t = .next u := by
  cases h : exec i s <;> simp [execAll, h]

theorem execAll_append {is js : List Instr} {s t : State} (h : execAll is s = .next t) :
    execAll (is ++ js) s = execAll js t := by
  induction is generalizing s with
  | nil => cases h; rfl
  | cons i is ih =>
    obtain ⟨u, hu, ht⟩ := execAll_cons_eq_next_iff.mp h
    rw [List.cons_append, execAll_cons hu, ih ht]

end Sys2Proof.Machine
end

