-- ==== Sys2Proof/Laws/PerInstr.lean ====
section
/-! SUPPORT. One statement per command as syntax: how many words its transaction has (spec 30_encoding.md R75, R79). -/

namespace Sys2Proof.Laws.FramedLength

/-- A well-formed command is encoded in 1 + P_in words, and its command word alone tells that number. -/
def Statement (i : Instr) : Prop :=
  ∀ v : Variant, i.wellFormed v = true →
    (encode i).length = 1 + inBeats v i.opcode ∧
    ∀ cw ws, encode i = cw :: ws → frameBeats v cw = inBeats v i.opcode

/-- The command word's part of the statement, the same for every command. -/
theorem of_length {i : Instr} (h : ∀ v : Variant, i.wellFormed v = true → (encode i).length = 1 + inBeats v i.opcode) :
    Statement i := by
  intro v hw
  refine ⟨h v hw, fun cw ws he => ?_⟩
  obtain ⟨len, rfl⟩ := encode_head he
  exact frameBeats_commandWord v i.opcode len

theorem seed (beats : List Word) : Statement (.seed beats) :=
  of_length fun v h => by
    have : beats.length = v.seedBytes / 4 := by simpa [Instr.wellFormed] using h
    simp [encode, inBeats, Instr.opcode, this, Nat.add_comm]

theorem seedU64 (x : Word64) : Statement (.seedU64 x) := of_length fun _ _ => rfl

theorem nextU32 : Statement .nextU32 := of_length fun _ _ => rfl

theorem nextU64 : Statement .nextU64 := of_length fun _ _ => rfl

theorem fill (len : BitVec 24) : Statement (.fill len) := of_length fun _ _ => rfl

theorem jump : Statement .jump := of_length fun _ _ => rfl

theorem stateRead : Statement .stateRead := of_length fun _ _ => rfl

theorem readStatus : Statement .readStatus := of_length fun _ _ => rfl

theorem readCap : Statement .readCap := of_length fun _ _ => rfl

end Sys2Proof.Laws.FramedLength
end

