-- ==== Sys2Proof/Laws/Port.lean ====
section
/-! SUPPORT. What a step can do: a reset, the transaction of the first ready instance, another input, or nothing. -/

namespace Sys2Proof.Machine

/-- firstReady answers the lowest ready index. -/
theorem firstReady_eq_some_iff {k e : Nat} {l : List Instance} :
    firstReady k l = some e ↔
      ∃ j x, e = k + j ∧ l[j]? = some x ∧ x.ready = true ∧ ∀ j' y, j' < j → l[j']? = some y → y.ready = false := by
  induction l generalizing k with
  | nil => simp [firstReady]
  | cons x xs ih =>
    unfold firstReady
    cases hx : x.ready with
    | true =>
      simp only [if_true, Option.some.injEq]
      constructor
      · rintro rfl
        exact ⟨0, x, rfl, rfl, hx, fun j' _ h => absurd h (Nat.not_lt_zero j')⟩
      · rintro ⟨j, y, rfl, -, -, hmin⟩
        cases j with
        | zero => rfl
        | succ j => exact absurd (hmin 0 x (Nat.succ_pos j) rfl) (by simp [hx])
    | false =>
      simp only [Bool.false_eq_true, if_false]
      rw [ih]
      constructor
      · rintro ⟨j, y, rfl, hy, hr, hmin⟩
        refine ⟨j + 1, y, by omega, by simpa using hy, hr, fun j' z h hz => ?_⟩
        cases j' with
        | zero => simp at hz; exact hz ▸ hx
        | succ j' => exact hmin j' z (by omega) (by simpa using hz)
      · rintro ⟨j, y, rfl, hy, hr, hmin⟩
        cases j with
        | zero => simp at hy; subst hy; simp [hx] at hr
        | succ j =>
          exact ⟨j, y, by omega, by simpa using hy, hr,
            fun j' z h hz => hmin (j' + 1) z (by omega) (by simpa using hz)⟩

theorem firstReady_eq_none_iff {k : Nat} {l : List Instance} :
    firstReady k l = none ↔ ∀ x ∈ l, x.ready = false := by
  induction l generalizing k with
  | nil => simp [firstReady]
  | cons x xs ih => cases hx : x.ready <;> simp [firstReady, hx, ih]

theorem ready_iff {x : Instance} :
    x.ready = true ↔ x.tx = [] ∧ decode x.build.variant x.rx ≠ .wait := by
  simp [Instance.ready, List.isEmpty_iff]

/-- A reset that stands first comes before everything. -/
theorem step_of_reset {s : State} {rest : List HostInput} (h : s.inputs = .reset :: rest) :
    step s = .next { s.applyReset with inputs := rest } := by
  simp [step, stepState, h, applyInput, State.applyReset]

/-- With no reset standing first, the first ready instance carries out its transaction. -/
theorem step_of_ready {s : State} {e : Nat} (hr : s.inputs.head? ≠ some .reset)
    (h : firstReady 0 s.engines = some e) : step s = transact s e := by
  unfold step stepState
  split
  · next hi => simp [hi] at hr
  · simp [h]

/-- With no instance ready, the oldest input takes place. -/
theorem step_of_input {s : State} {h : HostInput} {rest : List HostInput} (hi : s.inputs = h :: rest)
    (hn : firstReady 0 s.engines = none) : step s = applyInput { s with inputs := rest } h := by
  unfold step stepState
  split
  · next hr => simp [hi] at hr; obtain ⟨rfl, rfl⟩ := hr; rfl
  · simp [hi, hn]

/-- With no instance ready and no input, nothing happens. -/
theorem step_of_idle {s : State} (hi : s.inputs = []) (hn : firstReady 0 s.engines = none) : step s = .next s := by
  simp [step, stepState, hi, hn]

/-- Everything a step can be. -/
theorem step_cases (s : State) :
    (∃ rest, s.inputs = .reset :: rest ∧ step s = .next { s.applyReset with inputs := rest }) ∨
    (∃ e, s.inputs.head? ≠ some .reset ∧ firstReady 0 s.engines = some e ∧ step s = transact s e) ∨
    (∃ h rest, s.inputs = h :: rest ∧ h ≠ .reset ∧ firstReady 0 s.engines = none ∧
      step s = applyInput { s with inputs := rest } h) ∨
    (s.inputs = [] ∧ firstReady 0 s.engines = none ∧ step s = .next s) := by
  rcases hi : s.inputs with _ | ⟨h, rest⟩
  · rcases hf : firstReady 0 s.engines with _ | e
    · exact .inr (.inr (.inr ⟨rfl, rfl, step_of_idle hi hf⟩))
    · exact .inr (.inl ⟨e, by simp, rfl, step_of_ready (by simp [hi]) hf⟩)
  · by_cases hr : h = .reset
    · subst hr; exact .inl ⟨rest, rfl, step_of_reset hi⟩
    · rcases hf : firstReady 0 s.engines with _ | e
      · exact .inr (.inr (.inl ⟨h, rest, rfl, hr, rfl, step_of_input hi hf⟩))
      · exact .inr (.inl ⟨e, by simpa using hr, rfl, step_of_ready (by simpa [hi] using hr) hf⟩)

/-- What a transaction can end with. -/
theorem transact_eq_next {s t : State} {e : Nat} (h : transact s e = .next t) :
    ∃ x, s.engines[e]? = some x ∧
      ((decode x.build.variant x.rx = .wait ∧ t = s) ∨
       (∃ i rest, decode x.build.variant x.rx = .cmd i rest ∧ exec i (s.serve e x rest) = .next t) ∨
       (∃ r rest, decode x.build.variant x.rx = .reject r rest ∧
         t = (s.serve e x rest).setCurrent (({ x with rx := rest } : Instance).raise .ILLEGAL))) := by
  unfold transact at h
  cases hx : s.engines[e]? with
  | none => simp [hx] at h
  | some x =>
    refine ⟨x, rfl, ?_⟩
    simp only [hx] at h
    cases hd : decode x.build.variant x.rx with
    | wait => simp [hd] at h; exact .inl ⟨rfl, h.symm⟩
    | cmd i rest => simp [hd] at h; exact .inr (.inl ⟨i, rest, rfl, h⟩)
    | reject r rest =>
      simp only [hd] at h
      obtain ⟨y, z, hy, hz, rfl⟩ := onCurrent_eq_next_iff.mp h
      rw [serve_current s e x rest hx] at hy
      cases hy; cases hz
      exact .inr (.inr ⟨r, rest, rfl, rfl⟩)

end Sys2Proof.Machine
end

