-- ==== Sys2Proof/Tests/Slice0.lean ====
section
/-! SUPPORT. The model's own tests (expected values from spec/95_test_vectors.md and the rules' examples, V1-V12 and P1-P5
there), and for every statement with hypotheses a state and operands that meet them. -/

namespace Sys2Proof.Tests

open Sys2Proof.Machine Sys2Proof.Claims

/-- An instance with an empty port. -/
def inst (v : Variant) (S : StateReg) (life : Life) : Instance :=
  { build := ⟨v, true⟩, S := S, LIFE := life, ZSF := false, rx := [], tx := [] }

/-- An XCORE of one instance. -/
def xcore (x : Instance) : State := { engines := [x], cur := 0, inputs := [] }

/-- The outcome is a next state whose first instance has the given S, LIFE, ZSF and response words. -/
def endsWith (o : Host.Outcome State Fault Refusal) (S : StateReg) (life : Life) (zsf : Bool) (tx : List Word) : Bool :=
  match o with
  | .next t =>
    match t.engines with
    | y :: _ => y.S == S && y.LIFE == life && y.ZSF == zsf && y.tx == tx
    | [] => false
  | _ => false

/-- X128SS seeded (1, 2, 3, 4). -/
def s1234 : StateReg := .x128 ⟨1, 2, 3, 4⟩

/-- XR128SS or XR128P seeded (1, 2). -/
def s12 : StateReg := .xr128 ⟨1, 2⟩

/-! ### WellFormed: each check refuses an ill-formed term -/

theorem test_wellFormed_refuses_short_seed : (Instr.seed [1, 2, 3]).wellFormed .X128SS = false := by decide

theorem test_wellFormed_refuses_long_seed : (Instr.seed [1, 2, 3, 4]).wellFormed .SM64 = false := by decide

theorem test_wellFormed_takes_seed : (Instr.seed [1, 2]).wellFormed .SM64 = true := by decide

/-! ### Decode: the words of 30_encoding.md R71, R72, written out field by field (CW[31:8], CW[7:0]) -/

theorem test_decode_seed :
    decode .X128SS [0b000000000000000000000000_00000001#32, 1, 2, 3, 4, 9] = .cmd (.seed [1, 2, 3, 4]) [9] := by decide

theorem test_decode_seed_on_SM64 :
    decode .SM64 [0b000000000000000000000000_00000001#32, 1, 2, 3] = .cmd (.seed [1, 2]) [3] := by decide

theorem test_decode_seedU64 :
    decode .XR128P [0b000000000000000000000000_00000010#32, 0xa0a048bd, 0x14821d7f] =
      .cmd (.seedU64 0x14821d7fa0a048bd) [] := by decide

theorem test_decode_nextU32 : decode .X128P [0b000000000000000000000000_00000011#32] = .cmd .nextU32 [] := by decide

theorem test_decode_nextU64 : decode .X128P [0b000000000000000000000000_00000100#32] = .cmd .nextU64 [] := by decide

theorem test_decode_fill :
    decode .X128P [0b100000000000000000001011_00000101#32] = .cmd (.fill 0x80000B) [] := by decide

theorem test_decode_jump : decode .X128P [0b000000000000000000000000_00000110#32] = .cmd .jump [] := by decide

theorem test_decode_stateRead : decode .SM64 [0b000000000000000000000000_00000111#32] = .cmd .stateRead [] := by decide

theorem test_decode_readStatus : decode .SM64 [0b000000000000000000000000_00001000#32] = .cmd .readStatus [] := by decide

theorem test_decode_readCap : decode .X128SS_V [0b000000000000000000000000_00001001#32] = .cmd .readCap [] := by decide

theorem test_decode_rejects_reserved_opcode :
    decode .X128SS [0x0000000A, 3] = .reject (.reservedOpcode 0x0A) [3] := by decide

theorem test_decode_rejects_reserved_bits_and_takes_beats :
    decode .XR128SS [0x80000002, 1, 2, 3] = .reject (.reservedBits 0x02 0x800000) [3] := by decide

theorem test_decode_waits_for_beats : decode .X128SS [0x00000001, 1, 2, 3] = .wait := by decide

theorem test_encode_fill : encode (.fill 16777215) = [0xFFFFFF05] := by decide

theorem test_decodeTableWord_seed : decodeTableWord 32 0x00000001 = some (.seed [0, 0, 0, 0]) := by decide

theorem test_decodeTableWord_fill : decodeTableWord 32 0x00000705 = some (.fill 7) := by decide

/-! ### The functions: V1, V4, V5, V9, V10 -/

theorem test_mix : mix 1 = 0x5692161d100b05e5 ∧ mix 0xffffffffffffffff = 0xb4d055fcf2cbbd7b := by decide

theorem test_starstar : starstar 0x80000000#32 = 0x00000240 ∧ starstar 0xFFFFFFFFFFFFFFFF#64 = 0xFFFFFFFFFFFFEDF7 := by
  decide

theorem test_step_xoshiro : stepX128 ⟨1, 2, 3, 4⟩ = ⟨7, 0, 1026, 12288⟩ := by decide

theorem test_step_xoroshiro : stepXR128 ⟨1, 2⟩ = ⟨0x0000000001030003, 0x0000006000000000⟩ := by decide

theorem test_step_vector : lanesOf (stepV (toLanes ⟨1, 2, 3, 4⟩)) = ⟨7, 0, 0x402, 0x3000⟩ := by decide

theorem test_expand_xoshiro : expandX128 0 = ⟨0x7b1dcdaf, 0xa1b965f4, 0x8009454f, 0x724c81ec⟩ := by decide

/-! ### One step of each command -/

/-- V6. -/
theorem test_seed_xoshiro :
    endsWith (exec (.seed [1, 2, 3, 4]) (xcore (inst .X128SS .bot .UNSEEDED))) s1234 .SEEDED false [0] = true := by decide

/-- V6: one non-zero bit is enough. -/
theorem test_seed_xoroshiro_one_bit :
    endsWith (exec (.seed [0, 0, 0, 0x80000000]) (xcore (inst .XR128SS s12 .ADVANCING)))
      (.xr128 ⟨0, 0x8000000000000000⟩) .SEEDED false [0] = true := by decide

/-- V11: the previous stream is discarded. -/
theorem test_seed_zero_rejected :
    endsWith (exec (.seed [0, 0, 0, 0]) (xcore (inst .XR128P s12 .ADVANCING))) .bot .UNSEEDED true [1] = true := by decide

/-- V6. -/
theorem test_seedU64_xoroshiro :
    endsWith (exec (.seedU64 0) (xcore (inst .XR128SS .bot .UNSEEDED)))
      (.xr128 ⟨0xe220a8397b1dcdaf, 0x6e789e6aa1b965f4⟩) .SEEDED false [0] = true := by decide

/-- V11: the vector unit lacks SEED_U64. -/
theorem test_seedU64_unsupported :
    endsWith (exec (.seedU64 0) (xcore (inst .X128SS_V .bot .UNSEEDED))) .bot .UNSEEDED false [4] = true := by decide

/-- E1. -/
theorem test_nextU32_xoshiro :
    endsWith (exec .nextU32 (xcore (inst .X128SS s1234 .SEEDED))) (.x128 ⟨7, 0, 1026, 12288⟩) .ADVANCING false
      [0, 5760] = true := by decide

/-- V7, the second output of XR128SS seeded (1, 2): the upper half. -/
theorem test_nextU32_xoroshiro_upper_half :
    endsWith (exec .nextU32 (xcore (inst .XR128SS (.xr128 ⟨0x0000000001030003, 0x0000006000000000⟩) .ADVANCING)))
      (.xr128 ⟨0x0061026302000003, 0x2060006000000c00⟩) .ADVANCING false [0, 0x00000016] = true := by decide

/-- V7: the first extraction is the low half. -/
theorem test_nextU64_xoshiro :
    endsWith (exec .nextU64 (xcore (inst .X128SS s1234 .SEEDED))) (.x128 ⟨0x3007, 0x405, 0x405, 0x01800000⟩) .ADVANCING
      false [0, 0x00001680, 0x00009d80] = true := by decide

/-- E2: SplitMix64 seeded with 1477776061723855037. -/
theorem test_nextU64_splitmix :
    endsWith (exec .nextU64 (xcore (inst .SM64 (.sm64 1477776061723855037) .SEEDED))) (.sm64 0xb2b997391feac4d2)
      .ADVANCING false [0, 0x2bc829e2, 0x1b8cfae9] = true := by decide

/-- V8: FILL 11 on XR128P, the tail padded with 0. -/
theorem test_fill_tail :
    endsWith (exec (.fill 11) (xcore (inst .XR128P s12 .SEEDED))) (.xr128 ⟨0x0061026302000003, 0x2060006000000c00⟩)
      .ADVANCING false [0, 0x00000003, 0x00000000, 0x00030003] = true := by decide

/-- V8: FILL 0 changes nothing. -/
theorem test_fill_zero :
    endsWith (exec (.fill 0) (xcore (inst .X128SS s1234 .SEEDED))) s1234 .SEEDED false [0] = true := by decide

/-- V9. -/
theorem test_jump_xoshiro :
    endsWith (exec .jump (xcore (inst .X128SS s1234 .SEEDED)))
      (.x128 ⟨0xa9765206, 0x797aa168, 0x5b62e331, 0x02abd971⟩) .ADVANCING false [0] = true := by decide

/-- V9. -/
theorem test_jump_xoroshiro :
    endsWith (exec .jump (xcore (inst .XR128SS s12 .SEEDED))) (.xr128 ⟨0x66fbd4be1df0a7b5, 0x830c3ddbb4aa3172⟩)
      .ADVANCING false [0] = true := by decide

/-- P2. -/
theorem test_stateRead_xoroshiro :
    endsWith (exec .stateRead (xcore (inst .XR128SS (.xr128 ⟨0x8370f13add1d88f3, 0x54950b718b06ca7b⟩) .ADVANCING)))
      (.xr128 ⟨0x8370f13add1d88f3, 0x54950b718b06ca7b⟩) .ADVANCING false
      [0, 0xdd1d88f3, 0x8370f13a, 0x8b06ca7b, 0x54950b71] = true := by decide

/-- V11: nothing is read before a seed. -/
theorem test_stateRead_unseeded :
    endsWith (exec .stateRead (xcore (inst .X128SS .bot .UNSEEDED))) .bot .UNSEEDED false [2] = true := by decide

/-- V12: XR128* after ERR_ZERO_SEED, then SEED_U64 and NEXT_U64. -/
theorem test_readStatus :
    endsWith (exec .readStatus (xcore { inst .XR128SS s12 .ADVANCING with ZSF := true })) s12 .ADVANCING true [0, 6] =
      true := by decide

/-- V12, P4. -/
theorem test_readCap :
    endsWith (exec .readCap (xcore (inst .X128SS_V .bot .UNSEEDED))) .bot .UNSEEDED false [0, 0x000104C6] = true := by
  decide

/-- V11: ERR_ILLEGAL comes ahead of UNSUPPORTED and UNSEEDED. -/
theorem test_step_illegal :
    endsWith (step (xcore { inst .X128SS_V .bot .UNSEEDED with rx := [0x00000104] })) .bot .UNSEEDED false [3] = true := by
  decide

/-- A row's word placed at reset runs in the next step: NEXT_U32 answers ERR_UNSEEDED (P1, line 2). -/
theorem test_step_placed_word :
    endsWith (step (State.reset.withFetchWord 32 0x00000003)) .bot .UNSEEDED false [2] = true := by decide

/-! ### States that meet the hypotheses of the statements -/

/-- A seeded X128SS instance. -/
def xs : Instance := inst .X128SS s1234 .SEEDED

/-- A seeded X128P instance. -/
def xp : Instance := inst .X128P s1234 .ADVANCING

/-- A seeded XR128SS instance. -/
def xrs : Instance := inst .XR128SS s12 .SEEDED

/-- A seeded XR128P instance. -/
def xrp : Instance := inst .XR128P s12 .ADVANCING

/-- A seeded SM64 instance. -/
def sm : Instance := inst .SM64 (.sm64 0) .SEEDED

/-- A seeded vector unit with the lane blend. -/
def vu : Instance := inst .X128SS_V (.vec (toLanes ⟨1, 2, 3, 4⟩)) .SEEDED

/-- A vector unit without the lane blend. -/
def vuOff : Instance := { inst .X128SS_V .bot .UNSEEDED with build := ⟨.X128SS_V, false⟩ }

theorem witness_ResetValuesOfEveryInstance :
    Config.builds[0]? = some ⟨.X128SS, false⟩ ∧ Config.builds[6]? = some ⟨.X128SS_V, false⟩ := by decide

theorem witness_ResetInputAbandonsTransactions :
    ∃ (s : State) (rest : List HostInput) (x : Instance),
      s.inputs = .reset :: rest ∧ s.engines[0]? = some x ∧ x.rx = [3] ∧ x.LIFE = .SEEDED :=
  ⟨{ xcore { xs with rx := [3] } with inputs := [.reset, .take 0] }, [.take 0], { xs with rx := [3] }, by decide⟩

theorem witness_LegalStateAtReset : [(⟨.SM64, false⟩ : Build)] ≠ [] := by decide

theorem witness_StepKeepsLegalState_transaction :
    ∃ t : State, (xcore { xrs with rx := [6] }).Inv ∧ step (xcore { xrs with rx := [6] }) = .next t ∧
      t ≠ xcore { xrs with rx := [6] } :=
  ⟨_, by decide, rfl, by decide⟩

theorem witness_StepKeepsLegalState_reset :
    ∃ t : State, ({ xcore xrs with inputs := [.reset] } : State).Inv ∧
      step { xcore xrs with inputs := [.reset] } = .next t :=
  ⟨_, by decide, rfl⟩

theorem witness_XoroshiroStateNeverZeroInAnyRun :
    ∃ t : State,
      Host.Core.run core 4
        { State.resetOf [⟨.XR128P, false⟩] with inputs := [.send 0 2, .send 0 0, .send 0 0] } = .next t ∧
      ∃ x ∈ t.engines, isXR128 x.build.variant ∧ x.LIFE ≠ .UNSEEDED :=
  ⟨_, rfl, _, List.mem_cons_self, .inr rfl, by decide⟩

theorem witness_DecodeOfEncode : (Instr.seed [1, 2]).wellFormed .SM64 = true ∧
    (Instr.seed [1, 2, 3, 4]).wellFormed .X128SS_V = true ∧ (Instr.fill 16777215).wellFormed .SM64 = true := by decide

theorem witness_EncodeOfDecode : decode .SM64 [1, 5, 6, 7] = .cmd (.seed [5, 6]) [7] := by decide

/-- Two instances: the first waits for its response to be taken, the second has a command. -/
def pair (rx : List Word) : State :=
  { engines := [{ xs with rx := [3], tx := [0] }, { xrs with rx := rx }], cur := 0, inputs := [.take 0] }

theorem witness_StepRunsTheDecodedCommand :
    (pair [3, 9]).inputs.head? ≠ some .reset ∧ (pair [3, 9]).engines[1]? = some { xrs with rx := [3, 9] } ∧
    ({ xrs with rx := [3, 9] } : Instance).rx = encode .nextU32 ++ [9] ∧
    Instr.nextU32.wellFormed .XR128SS = true ∧
    (pair [3, 9]).engines[0]? = some { xs with rx := [3], tx := [0] } ∧
    ({ xs with rx := [3], tx := [0] } : Instance).ready = false := by decide

theorem witness_IllegalCommandWordAnswered :
    illegal 0x00000000#32 ∧ illegal 0x0000000A#32 ∧ illegal 0x000000FF#32 ∧ illegal 0x00000101#32 ∧
    beatsIn .XR128SS 0x00000101#32 ≤ [1#32, 2#32, 3#32, 4#32].length ∧ ¬ illegal 0xFFFFFF05#32 ∧
    ¬ illegal 0x00000009#32 ∧ (pair [0x00000101, 1, 2, 3, 4]).inputs.head? ≠ some .reset ∧
    (pair [0x00000101, 1, 2, 3, 4]).engines[1]? = some { xrs with rx := [0x00000101, 1, 2, 3, 4] } := by
  decide

theorem witness_ResponseCodePriority :
    (pair [7]).inputs.head? ≠ some .reset ∧ (pair [7]).engines[1]? = some { xrs with rx := [7] } ∧
    ({ xrs with rx := [7] } : Instance).Inv ∧ (pair [7]).engines[0]? = some { xs with rx := [3], tx := [0] } ∧
    ({ xs with rx := [3], tx := [0] } : Instance).ready = false ∧ beatsIn .XR128SS 7 ≤ ([] : List Word).length := by decide

theorem witness_ResponseCodePriority_unsupported :
    vu.Inv ∧ vuOff.Inv ∧ sm.Inv ∧ unsupported sm.build 6 ∧ unsupported vu.build 4 ∧ unsupported vuOff.build 1 ∧
    ¬ unsupported vuOff.build 8 ∧ ¬ unsupported vuOff.build 9 ∧ ¬ unsupported vu.build 7 :=
  ⟨by decide, by decide, by decide, by decide, by decide, by decide, by decide, by decide, by decide⟩

theorem witness_ResponseCodePriority_state :
    ¬ illegal 0x00000003#32 ∧ readsState 3 ∧ readsState 7 ∧ ¬ readsState 2 ∧ ¬ readsState 8 ∧
    (inst .X128P .bot .UNSEEDED).Inv ∧ isXR128 xrs.build.variant ∧ ¬ unsupported xrs.build 1 := by decide

/-- The zero-seed clause: an all-zero SEED; and beside it a seed with one bit set in its last beat, which falls under OK. -/
theorem witness_ResponseCodePriority_zeroSeed :
    (pair [1, 0, 0, 0, 0]).inputs.head? ≠ some .reset ∧
    (pair [1, 0, 0, 0, 0]).engines[1]? = some { xrs with rx := [1, 0, 0, 0, 0] } ∧
    ({ xrs with rx := [1, 0, 0, 0, 0] } : Instance).Inv ∧
    (pair [1, 0, 0, 0, 0]).engines[0]? = some { xs with rx := [3], tx := [0] } ∧
    ({ xs with rx := [3], tx := [0] } : Instance).ready = false ∧
    beatsIn .XR128SS 1 ≤ ([0, 0, 0, 0] : List Word).length ∧ ¬ illegal 1#32 ∧ ¬ unsupported xrs.build 1 ∧ ¬ readsState 1 ∧
    isXR128 xrs.build.variant ∧ ([0, 0, 0, 0] : List Word).take 4 = [0#32, 0#32, 0#32, 0#32] ∧
    ([0, 0, 0, 0x80000000] : List Word).take 4 ≠ [0#32, 0#32, 0#32, 0#32] := by decide

theorem witness_UnfinishedTransactionIsHeld :
    ∃ t : State, (pair [1, 5]).inputs.head? ≠ some .reset ∧ (pair [1, 5]).engines[1]? = some { xrs with rx := [1, 5] } ∧
      ([5#32] : List Word).length < beatsIn .XR128SS 1 ∧ (pair [1, 5]).engines[0]? = some { xs with rx := [3], tx := [0] } ∧
      step (pair [1, 5]) = .next t :=
  ⟨_, by decide, by decide, by decide, by decide, rfl⟩

theorem witness_PortsWithoutAReadyInstance :
    (∀ x ∈ (pair []).engines, x.ready = false) ∧ (pair []).inputs = [.take 0] ∧
    (∀ x ∈ ({ pair [] with inputs := [.send 2 7] } : State).engines, x.ready = false) ∧ (pair []).engines[2]? = none ∧
    (∀ x ∈ ({ pair [] with inputs := [] } : State).engines, x.ready = false) := by decide

theorem witness_UnseededCommandChangesNothing :
    ((xcore (inst .X128SS .bot .UNSEEDED)).current = some (inst .X128SS .bot .UNSEEDED) ∧
      (inst .X128SS .bot .UNSEEDED).LIFE = .UNSEEDED ∧ needsASeed .jump ∧ needsASeed (.fill 0)) ∧
    ((xcore (inst .X128SS_V .bot .UNSEEDED)).current = some (inst .X128SS_V .bot .UNSEEDED) ∧
      (inst .X128SS_V .bot .UNSEEDED).build.hasLaneBlend = true ∧ needsASeed .stateRead) :=
  ⟨⟨by decide, rfl, .inr (.inr (.inr (.inl rfl))), .inr (.inr (.inl ⟨0, rfl⟩))⟩,
    ⟨by decide, rfl, .inr (.inr (.inr (.inr rfl)))⟩⟩

theorem witness_EveryCommandCompletes : xs.Inv ∧ xp.Inv ∧ xrp.Inv ∧ (inst .X128P .bot .UNSEEDED).Inv ∧
    Instr.jump.wellFormed .X128SS = true := by decide

theorem witness_StopsOnUnreachableForms :
    ({ engines := [], cur := 0, inputs := [] } : State).current = none ∧ ([1#32, 2#32, 3#32] : List Word).length ≠ 4 ∧
    (inst .X128SS .bot .SEEDED).LIFE ≠ .UNSEEDED ∧ (inst .X128SS .bot .SEEDED).S.fits .X128SS = false ∧
    (inst .X128SS_V s1234 .SEEDED).S.fits .X128SS_V = false := by decide

/-- Each of the three lists of 60_exceptions.md R244. -/
theorem witness_UnsupportedCommandChangesNothing :
    ((xcore sm).current = some sm ∧ sm.build.variant = .SM64) ∧
    ((xcore vu).current = some vu ∧ vu.build.variant = .X128SS_V) ∧
    ((xcore vuOff).current = some vuOff ∧ vuOff.build.variant = .X128SS_V ∧ vuOff.build.hasLaneBlend = false ∧
      Instr.seed [1, 2, 3, 4] ≠ .readStatus ∧ Instr.seed [1, 2, 3, 4] ≠ .readCap) := by decide

/-- One instance for each of the four clauses, and the xoroshiro seed with a single non-zero bit. -/
theorem witness_SeedInstallsItsWords :
    ((xcore xs).current = some xs ∧ isX128 xs.build.variant) ∧ ((xcore xrs).current = some xrs ∧ isXR128 xrs.build.variant) ∧
    ¬ ((0 : Word) = 0 ∧ (0 : Word) = 0 ∧ (0 : Word) = 0 ∧ (1 : Word) = 0) ∧
    ((xcore sm).current = some sm ∧ sm.build.variant = .SM64) ∧
    ((xcore vu).current = some vu ∧ vu.build.variant = .X128SS_V ∧ vu.build.hasLaneBlend = true) := by decide

theorem witness_ZeroSeedIsRejected : (xcore xrp).current = some xrp ∧ isXR128 xrp.build.variant ∧
    ∃ (t : State) (y : Instance), exec (.seed [0#32, 0#32, 0#32, 0#32]) (xcore xrp) = .next t ∧ t.current = some y ∧
      y.tx = xrp.tx ++ [0x00000001#32] :=
  ⟨by decide, by decide, _, _, rfl, rfl, by decide⟩

theorem witness_SeedU64InstallsTheExpansion :
    ((xcore xp).current = some xp ∧ isX128 xp.build.variant) ∧ ((xcore xrp).current = some xrp ∧ isXR128 xrp.build.variant) ∧
    ((xcore sm).current = some sm ∧ sm.build.variant = .SM64) := by decide

theorem witness_NextU32OnXoshiro128 : (xcore xs).current = some xs ∧ isX128 xs.build.variant ∧ xs.LIFE ≠ .UNSEEDED ∧
    xs.S = .x128 ⟨1, 2, 3, 4⟩ := by decide

theorem witness_NextU32OnXoroshiro128 : (xcore xrp).current = some xrp ∧ isXR128 xrp.build.variant ∧
    xrp.LIFE ≠ .UNSEEDED ∧ xrp.S = .xr128 ⟨1, 2⟩ := by decide

theorem witness_NextU32OnSplitMix : (xcore sm).current = some sm ∧ sm.build.variant = .SM64 ∧ sm.LIFE ≠ .UNSEEDED ∧
    sm.S = .sm64 0 := by decide

theorem witness_NextU32OnVectorUnit : (xcore vu).current = some vu ∧ vu.build.variant = .X128SS_V ∧
    vu.build.hasLaneBlend = true ∧ vu.LIFE ≠ .UNSEEDED ∧ vu.S = .vec 0x00000004000000030000000200000001 := by decide

theorem witness_NextU64OnXoshiro128 : (xcore xp).current = some xp ∧ isX128 xp.build.variant ∧ xp.LIFE ≠ .UNSEEDED ∧
    xp.S = .x128 ⟨1, 2, 3, 4⟩ := by decide

theorem witness_NextU64OnXoroshiro128 : (xcore xrs).current = some xrs ∧ isXR128 xrs.build.variant ∧
    xrs.LIFE ≠ .UNSEEDED ∧ xrs.S = .xr128 ⟨1, 2⟩ := by decide

theorem witness_NextU64OnSplitMix : (xcore sm).current = some sm ∧ sm.build.variant = .SM64 ∧ sm.LIFE ≠ .UNSEEDED ∧
    sm.S = .sm64 0 := witness_NextU32OnSplitMix

theorem witness_JumpFollowsThePolynomial :
    ((xcore xp).current = some xp ∧ isX128 xp.build.variant ∧ xp.LIFE ≠ .UNSEEDED ∧ xp.S = .x128 ⟨1, 2, 3, 4⟩) ∧
    ((xcore xrs).current = some xrs ∧ isXR128 xrs.build.variant ∧ xrs.LIFE ≠ .UNSEEDED ∧ xrs.S = .xr128 ⟨1, 2⟩) :=
  ⟨witness_NextU64OnXoshiro128, witness_NextU64OnXoroshiro128⟩

theorem witness_JumpIsTwoToThe64Steps :
    ((xcore xs).current = some xs ∧ isX128 xs.build.variant ∧ xs.LIFE ≠ .UNSEEDED ∧ xs.S = .x128 ⟨1, 2, 3, 4⟩) ∧
    ((xcore xrp).current = some xrp ∧ isXR128 xrp.build.variant ∧ xrp.LIFE ≠ .UNSEEDED ∧ xrp.S = .xr128 ⟨1, 2⟩) :=
  ⟨witness_NextU32OnXoshiro128, witness_NextU32OnXoroshiro128⟩

theorem witness_JumpIsInvertibleAndNotIdempotent :
    isX128 .X128SS ∧ isX128 .X128P ∧ isXR128 .XR128SS ∧ isXR128 .XR128P ∧ (⟨1, 0, 0, 0⟩ : X128) ≠ ⟨0, 0, 0, 0⟩ ∧
    (⟨1, 0⟩ : XR128) ≠ ⟨0, 0⟩ := by decide

theorem witness_StateReadSendsSeedFormat :
    ((xcore xs).current = some xs ∧ xs.LIFE ≠ .UNSEEDED ∧ isX128 xs.build.variant ∧ xs.S = .x128 ⟨1, 2, 3, 4⟩) ∧
    ((xcore xrp).current = some xrp ∧ xrp.LIFE ≠ .UNSEEDED ∧ isXR128 xrp.build.variant ∧ xrp.S = .xr128 ⟨1, 2⟩) ∧
    ((xcore sm).current = some sm ∧ sm.LIFE ≠ .UNSEEDED ∧ sm.build.variant = .SM64 ∧ sm.S = .sm64 0) ∧
    ((xcore vu).current = some vu ∧ vu.LIFE ≠ .UNSEEDED ∧ vu.build.variant = .X128SS_V ∧ vu.build.hasLaneBlend = true ∧
      vu.S = .vec 0x00000004000000030000000200000001) := by decide

theorem witness_ReadStatusSendsStatus : (xcore vuOff).current = some vuOff := by decide

theorem witness_XoshiroStepInverts : (⟨0, 0, 0, 1⟩ : X128) ≠ ⟨0, 0, 0, 0⟩ ∧ (⟨0, 1⟩ : XR128) ≠ ⟨0, 0⟩ := by decide

theorem witness_FunctionCornerCases : StateReg.fits .X128SS_V (.vec 0) = true ∧ StateReg.fits .SM64 (.sm64 0) = true := by
  decide

theorem witness_NextU64IsTwoNextU32 : xp.S.fits xp.build.variant = true ∧ isX128 xp.build.variant ∧
    xp.LIFE ≠ .UNSEEDED := ⟨by decide, .inr rfl, by decide⟩

theorem witness_WidthDerivation : ∃ (s t : State) (x y : Instance), s.current = some x ∧ t.current = some y ∧
    isXR128 x.build.variant ∧ y.build.variant = x.build.variant ∧ x.LIFE ≠ .UNSEEDED ∧ y.LIFE ≠ .UNSEEDED ∧
    x.S.fits x.build.variant = true ∧ y.S = x.S :=
  ⟨xcore xrs, xcore { xrs with LIFE := .ADVANCING }, xrs, { xrs with LIFE := .ADVANCING }, by decide, by decide, .inl rfl,
    rfl, by decide, by decide, by decide, rfl⟩

theorem witness_FillWritesTheNativeStream : ∃ (s : State) (x : Instance), s.current = some x ∧
    x.build.variant ≠ .X128SS_V ∧ x.LIFE ≠ .UNSEEDED ∧ x.S.fits x.build.variant = true :=
  ⟨xcore sm, sm, by decide, by decide, by decide, by decide⟩

theorem witness_FillComposition : (8#24).toNat + (16777207#24).toNat < 2 ^ 24 ∧
    (8#24).toNat % (xrs.build.variant.width / 8) = 0 ∧ (3#24).toNat % (xrp.build.variant.width / 8) ≠ 0 := by decide

theorem witness_FillOfWholeWords : 8 * 2097151 < 2 ^ 24 := by decide

theorem witness_PeriodOfEveryNonzeroState : (⟨1, 0, 0, 0⟩ : X128) ≠ ⟨0, 0, 0, 0⟩ ∧ (⟨1, 0⟩ : XR128) ≠ ⟨0, 0⟩ := by decide

theorem witness_MixIsBijective : 1 ≤ 30 ∧ 1 ≤ 64 ∧ (5#64).toNat % 2 = 1 := by decide

theorem witness_ParallelStreamsDoNotOverlap :
    ((xcore xp).current = some xp ∧ isX128 xp.build.variant ∧ xp.LIFE ≠ .UNSEEDED ∧ ∃ S, xp.S = .x128 S) ∧
    ((xcore xrp).current = some xrp ∧ isXR128 xrp.build.variant ∧ xrp.LIFE ≠ .UNSEEDED ∧ ∃ S, xrp.S = .xr128 S) ∧
    (⟨0, 0, 0, 1⟩ : X128) ≠ ⟨0, 0, 0, 0⟩ ∧ (⟨0, 1⟩ : XR128) ≠ ⟨0, 0⟩ ∧ 2 < Config.jumpDistance ∧
    Config.jumpDistance - 1 < Config.jumpDistance :=
  ⟨⟨by decide, by decide, by decide, _, rfl⟩, ⟨by decide, by decide, by decide, _, rfl⟩, by decide, by decide,
    by decide, by decide⟩

theorem witness_CloneInstallsTheSameState : ∃ (s t : State) (x z : Instance), s.current = some x ∧ x.Inv ∧
    x.LIFE ≠ .UNSEEDED ∧ t.current = some z ∧ z.build.variant = x.build.variant ∧
    (z.build.variant = .X128SS_V → z.build.hasLaneBlend = true) :=
  ⟨xcore xrs, xcore (inst .XR128SS .bot .UNSEEDED), xrs, inst .XR128SS .bot .UNSEEDED, by decide, by decide, by decide,
    by decide, rfl, by decide⟩

theorem witness_ReadCapSendsTheConstant :
    (vuOff.build.variant, vuOff.build.hasLaneBlend, 0x00010446#32) ∈ capTable ∧ (xcore vuOff).current = some vuOff := by
  decide

/-- A command that ends with OK, one that ends with an error, and the rejected seed. -/
theorem witness_LifeTransitions :
    (∃ (t : State) (y : Instance), exec .nextU32 (xcore xs) = .next t ∧ (xcore xs).current = some xs ∧
      t.current = some y) ∧
    (∃ (t : State) (y : Instance), exec .jump (xcore sm) = .next t ∧ (xcore sm).current = some sm ∧
      t.current = some y) ∧
    (∃ (t : State) (y : Instance), exec (.seed [0, 0, 0, 0]) (xcore xrp) = .next t ∧ (xcore xrp).current = some xrp ∧
      t.current = some y) :=
  ⟨⟨_, _, rfl, rfl, rfl⟩, ⟨_, _, rfl, rfl, rfl⟩, ⟨_, _, rfl, rfl, rfl⟩⟩

theorem witness_ZeroSeedFlagIsSticky :
    ∃ (t : State) (y : Instance), exec (.seed [0, 0, 0, 0]) (xcore xrp) = .next t ∧ (xcore xrp).current = some xrp ∧
      t.current = some y ∧ isXR128 xrp.build.variant := ⟨_, _, rfl, rfl, rfl, by decide⟩

theorem witness_ErrorsArePrecise :
    ∃ (t : State) (y : Instance), exec .jump (xcore sm) = .next t ∧ (xcore sm).current = some sm ∧ t.current = some y ∧
      y.tx = [responseWord (.error .UNSUPPORTED)] := ⟨_, _, rfl, rfl, rfl, by decide⟩

theorem witness_ResponseShape :
    ∃ (t : State) (y : Instance), exec (.fill 7) (xcore xs) = .next t ∧ (xcore xs).current = some xs ∧
      t.current = some y := ⟨_, _, rfl, rfl, rfl⟩

theorem witness_FrameOfEveryCommand :
    ∃ (t : State) (y : Instance), exec .readStatus (pair []) = .next t ∧
      (pair []).current = some { xs with rx := [3], tx := [0] } ∧ t.current = some y ∧ (1 : Nat) ≠ (pair []).cur :=
  ⟨_, _, rfl, rfl, rfl, by decide⟩

theorem witness_InstancesCommute :
    ∃ s1 s2 : State, (0 : Nat) ≠ 1 ∧ exec .nextU32 { pair [] with cur := 0 } = .next s1 ∧
      exec .jump { pair [] with cur := 1 } = .next s2 :=
  ⟨_, _, by decide, rfl, rfl⟩

theorem witness_EqualSeedsGiveEqualStreams :
    ∃ (s1 t1 s2 : State) (x1 y1 : Instance),
      xs.build = ({ xs with LIFE := .ADVANCING, S := .x128 ⟨9, 9, 9, 9⟩ } : Instance).build ∧
      exec (.seed [1, 2, 3, 4]) (xcore xs) = .next s1 ∧
      exec (.seed [1, 2, 3, 4]) (xcore { xs with LIFE := .ADVANCING, S := .x128 ⟨9, 9, 9, 9⟩ }) = .next t1 ∧
      s1.current = some x1 ∧ t1.current = some y1 ∧ x1.tx = xs.tx ++ [0x00000000#32] ∧
      execAll [.nextU32, .readStatus] s1 = .next s2 :=
  ⟨_, _, _, _, _, rfl, rfl, rfl, rfl, rfl, rfl, rfl⟩

theorem witness_ScalarVectorEquivalence : ∃ (s t : State) (x y : Instance), s.current = some x ∧
    x.build.variant = .X128SS ∧ t.current = some y ∧ y.build.variant = .X128SS_V ∧ y.build.hasLaneBlend = true ∧
    ([1, 2, 3, 4] : List Word).length = 4 :=
  ⟨xcore xs, xcore vu, xs, vu, by decide, rfl, by decide, rfl, rfl, rfl⟩

end Sys2Proof.Tests
end

section
/-! The frame of every command (00_scope.md R12; 10_state.md R20, R21; 20_memory.md R58; 60_exceptions.md R254): what an
ending leaves of an instance, which endings a command has, and from both what a command leaves of the XCORE. -/

namespace Sys2Proof.Machine

open Sys2Proof.Claims

/-! ### What an ending leaves of an instance -/

/-- From `x` to `y` the build and the waiting words stay, and what was sent stays sent. -/
structure KeepsPort (x y : Instance) : Prop where
  build : y.build = x.build
  rx : y.rx = x.rx
  tx : ∃ sent, y.tx = x.tx ++ sent

/-- From `x` to `y` the architectural state S, LIFE and ZSF stays (10_state.md R20). -/
structure KeepsRegs (x y : Instance) : Prop where
  S : y.S = x.S
  LIFE : y.LIFE = x.LIFE
  ZSF : y.ZSF = x.ZSF

theorem respond_keepsPort (x : Instance) (outs : List Word) : KeepsPort x (x.respond outs) :=
  ⟨respond_build x outs, respond_rx x outs, _, respond_tx x outs⟩

theorem raise_keepsPort (x : Instance) (e : Err) : KeepsPort x (x.raise e) :=
  ⟨raise_build x e, raise_rx x e, _, raise_tx x e⟩

theorem accept_keepsPort (x : Instance) (T : StateReg) : KeepsPort x (x.accept T) :=
  ⟨accept_build x T, accept_rx x T, _, accept_tx x T⟩

theorem advance_keepsPort (x : Instance) (T : StateReg) (outs : List Word) : KeepsPort x (x.advance T outs) :=
  ⟨advance_build x T outs, advance_rx x T outs, _, advance_tx x T outs⟩

theorem respond_keepsRegs (x : Instance) (outs : List Word) : KeepsRegs x (x.respond outs) :=
  ⟨respond_S x outs, respond_LIFE x outs, respond_ZSF x outs⟩

/-- Only ERR_ZERO_SEED has an effect on the registers (60_exceptions.md R241). -/
theorem raise_keepsRegs (x : Instance) {e : Err} (he : e ≠ .ZERO_SEED) : KeepsRegs x (x.raise e) :=
  ⟨by simp [he], by simp [he], by simp [he]⟩

/-- The common checks never answer ERR_ZERO_SEED, which is SEED's own (44_engine_commands.md R160, R166). -/
theorem failedCheck_ne_zeroSeed {o : Opcode} {x : Instance} {e : Err} (h : failedCheck o x = some e) :
    e ≠ .ZERO_SEED := by
  obtain ⟨rfl, -⟩ | ⟨rfl, -⟩ := failedCheck_eq_some_iff.mp h <;> decide

/-! ### Which endings a command has -/

/-- The commands that can change S, LIFE or ZSF: those that write S, but for FILL of 0 bytes (10_state.md R21;
44_engine_commands.md R185). -/
def changesRegs (i : Instr) : Prop := writesState i ∧ i ≠ .fill 0#24

/-- A rule answers OK and leaves the registers, or it is one of a command that changes them and accepts a seed, advances
the stream or rejects the zero seed. -/
theorem ruleOf_ending {i : Instr} {x y : Instance} (h : ruleOf i x = .next y) :
    (∃ outs, y = x.respond outs) ∨
    (changesRegs i ∧ ((∃ T, y = x.accept T) ∨ (∃ T outs, y = x.advance T outs) ∨ y = x.raise .ZERO_SEED)) := by
  cases i with
  | seed beats =>
    have hi : changesRegs (.seed beats) := ⟨.inl ⟨beats, rfl⟩, nofun⟩
    obtain ⟨T, -, ⟨-, hy⟩ | ⟨-, hy⟩⟩ := seedRule_eq_next_iff.mp h
    · exact .inr ⟨hi, .inr (.inr hy)⟩
    · exact .inr ⟨hi, .inl ⟨T, hy⟩⟩
  | seedU64 v =>
    cases h
    exact .inr ⟨⟨.inr (.inl ⟨v, rfl⟩), nofun⟩, .inl ⟨_, rfl⟩⟩
  | nextU32 =>
    obtain ⟨o, S', -, hy⟩ := nextU32Rule_eq_next_iff.mp h
    exact .inr ⟨⟨by simp [writesState], nofun⟩, .inr (.inl ⟨S', _, hy⟩)⟩
  | nextU64 =>
    obtain ⟨os, S', r, -, -, hy⟩ := nextU64Rule_eq_next_iff.mp h
    exact .inr ⟨⟨by simp [writesState], nofun⟩, .inr (.inl ⟨S', _, hy⟩)⟩
  | fill len =>
    obtain ⟨os, S', -, ⟨-, hy⟩ | ⟨hlen, hy⟩⟩ := fillRule_eq_next_iff.mp h
    · exact .inl ⟨[], hy⟩
    · exact .inr ⟨⟨by simp [writesState], by simpa using hlen⟩, .inr (.inl ⟨S', _, hy⟩)⟩
  | jump =>
    obtain ⟨S', -, hy⟩ := jumpRule_eq_next_iff.mp h
    exact .inr ⟨⟨by simp [writesState], nofun⟩, .inr (.inl ⟨S', _, hy⟩)⟩
  | stateRead =>
    obtain ⟨bytes, -, hy⟩ := stateReadRule_eq_next_iff.mp h
    exact .inl ⟨_, hy⟩
  | readStatus => cases h; exact .inl ⟨_, rfl⟩
  | readCap => cases h; exact .inl ⟨_, rfl⟩

theorem ruleOf_keepsPort {i : Instr} {x y : Instance} (h : ruleOf i x = .next y) : KeepsPort x y := by
  obtain ⟨outs, rfl⟩ | ⟨-, ⟨T, rfl⟩ | ⟨T, outs, rfl⟩ | rfl⟩ := ruleOf_ending h
  · exact respond_keepsPort x outs
  · exact accept_keepsPort x T
  · exact advance_keepsPort x T outs
  · exact raise_keepsPort x .ZERO_SEED

theorem ruleOf_keepsRegs {i : Instr} {x y : Instance} (h : ruleOf i x = .next y) (hi : ¬ changesRegs i) :
    KeepsRegs x y := by
  obtain ⟨outs, rfl⟩ | ⟨hc, -⟩ := ruleOf_ending h
  · exact respond_keepsRegs x outs
  · exact absurd hc hi

/-! ### What a command leaves of the XCORE -/

/-- The frame from which the one of the spec is read off: `setCurrent` says what stays outside the current instance
(00_scope.md R12), the other two what stays inside it. -/
theorem exec_frame {i : Instr} {s t : State} {x y : Instance} (h : exec i s = .next t) (hx : s.current = some x)
    (hy : t.current = some y) :
    t = s.setCurrent y ∧ KeepsPort x y ∧ (¬ changesRegs i → KeepsRegs x y) := by
  obtain ⟨x', y', hx', rfl, hend⟩ := exec_eq_next_iff.mp h
  obtain rfl : x = x' := Option.some.inj (hx.symm.trans hx')
  obtain rfl : y' = y := Option.some.inj ((current_setCurrent s y' hx).symm.trans hy)
  obtain ⟨e, he, rfl⟩ | ⟨-, hr⟩ := hend
  · exact ⟨rfl, raise_keepsPort x e, fun _ => raise_keepsRegs x (failedCheck_ne_zeroSeed he)⟩
  · exact ⟨rfl, ruleOf_keepsPort hr, ruleOf_keepsRegs hr⟩

/-- Settles O55: by `exec_frame`, the next state is the old one with the current instance replaced. -/
theorem frameOfEveryCommand : Obligations.FrameOfEveryCommand := by
  unfold Obligations.FrameOfEveryCommand
  intro i s t x y h hx hy
  obtain ⟨rfl, hport, hregs⟩ := exec_frame h hx hy
  have regs_of (hi : ¬ changesRegs i) : y.S = x.S ∧ y.LIFE = x.LIFE ∧ y.ZSF = x.ZSF :=
    ⟨(hregs hi).S, (hregs hi).LIFE, (hregs hi).ZSF⟩
  exact ⟨setCurrent_cur s y, setCurrent_inputs s y, by simp, fun _ he => setCurrent_other s y he,
    hport.build, hport.rx, hport.tx, fun hw => regs_of fun hc => hw hc.1, fun hfill => regs_of fun hc => hc.2 hfill⟩

end Sys2Proof.Machine
end

section
/-! States that no transition and no JUMP makes all-zero (10_state.md R32): the xoroshiro128 transition is linear and keeps
every state but the all-zero one non-zero, and JUMP on it is undone by a second walk. -/

namespace Sys2Proof.Machine

/-! ### Rotations and shifts over exclusive or -/

theorem shl_xor {w : Nat} (x y : BitVec w) (k : Nat) : shl (x ^^^ y) k = shl x k ^^^ shl y k :=
  BitVec.shiftLeft_xor_distrib x y k

theorem getLsbD_rotl {w k i : Nat} (x : BitVec w) (hk : k < w) (hi : i < w) :
    (rotl x k).getLsbD i = if i < k then x.getLsbD (w - k + i) else x.getLsbD (i - k) := by
  split_ifs with h
  · simp [rotl, shl, shr, h, -BitVec.getLsbD_eq_getElem]
  · simp [rotl, shl, shr, h, hi, BitVec.getLsbD_of_ge x (w - k + i) (by omega), -BitVec.getLsbD_eq_getElem]

theorem rotl_xor {w k : Nat} (x y : BitVec w) (hk : k < w) : rotl (x ^^^ y) k = rotl x k ^^^ rotl y k := by
  refine BitVec.eq_of_getLsbD_eq fun i hi => ?_
  simp only [BitVec.getLsbD_xor, getLsbD_rotl _ hk hi]
  split_ifs <;> rfl

@[simp] theorem rotl_zero {w : Nat} (k : Nat) : rotl 0#w k = 0#w := by simp [rotl, shl, shr]

/-- Rotating by k and then by w - k gives the word back. -/
theorem rotl_rotl_sub {w k : Nat} (x : BitVec w) (h0 : 0 < k) (hk : k < w) : rotl (rotl x k) (w - k) = x := by
  refine BitVec.eq_of_getLsbD_eq fun i hi => ?_
  rw [getLsbD_rotl _ (by omega) hi]
  split_ifs with h
  · rw [getLsbD_rotl _ hk (by omega), if_neg (by omega)]
    congr 1; omega
  · rw [getLsbD_rotl _ hk (by omega), if_pos (by omega)]
    congr 1; omega

theorem rotl_eq_zero {w k : Nat} {x : BitVec w} (h0 : 0 < k) (hk : k < w) (h : rotl x k = 0#w) : x = 0#w := by
  rw [← rotl_rotl_sub x h0 hk, h, rotl_zero]

/-- Every word is the exclusive or of single bits. -/
theorem word_induction {w : Nat} {P : BitVec w → Prop} (zero : P 0#w) (bit : ∀ i, i < w → P (BitVec.twoPow w i))
    (xor : ∀ a b, P a → P b → P (a ^^^ b)) (c : BitVec w) : P c := by
  suffices h : ∀ (n : Nat) (c : BitVec w), (∀ i, n ≤ i → c.getLsbD i = false) → P c from
    h w c fun i hi => BitVec.getLsbD_of_ge c i hi
  intro n
  induction n with
  | zero =>
    intro c hc
    obtain rfl : c = 0#w := BitVec.eq_of_getLsbD_eq fun i _ => by rw [hc i (Nat.zero_le i), BitVec.getLsbD_zero]
    exact zero
  | succ n ih =>
    intro c hc
    cases hn : c.getLsbD n with
    | false => exact ih c fun i hi => (Nat.eq_or_lt_of_le hi).elim (fun h => h ▸ hn) (hc i)
    | true =>
      have hw : n < w := BitVec.lt_of_getLsbD hn
      have hrest : P (c ^^^ BitVec.twoPow w n) := by
        refine ih _ fun i hi => ?_
        rcases Nat.eq_or_lt_of_le hi with rfl | hlt
        · simp [hn, hw]
        · simp [hc i hlt, show n ≠ i by omega]
      have h := xor _ _ hrest (bit n hw)
      rwa [BitVec.xor_assoc, BitVec.xor_self, BitVec.xor_zero] at h

/-! ### The xoroshiro128 transition (43_kernels.md R145) -/

theorem XR128.xor_xor_xor_comm (a b c d : XR128) : (a.xor b).xor (c.xor d) = (a.xor c).xor (b.xor d) := by
  simp only [XR128.xor, XR128.mk.injEq]
  exact ⟨by ac_rfl, by ac_rfl⟩

theorem XR128.xor_self (S : XR128) : S.xor S = ⟨0, 0⟩ := by simp [XR128.xor]

theorem stepXR128_xor (S T : XR128) : stepXR128 (S.xor T) = (stepXR128 S).xor (stepXR128 T) := by
  have comm (a b c d : Word64) : a ^^^ b ^^^ (c ^^^ d) = a ^^^ c ^^^ (b ^^^ d) := by ac_rfl
  simp only [stepXR128, XR128.xor, rotl_xor _ _ (show 24 < 64 by decide), rotl_xor _ _ (show 37 < 64 by decide),
    shl_xor, comm]

theorem stepXR128_zero : stepXR128 ⟨0, 0⟩ = ⟨0, 0⟩ := by decide

theorem stepXR128_diagonal (c : Word64) : stepXR128 ⟨c, c⟩ = ⟨rotl c 24, 0⟩ := by
  simp [stepXR128, shl]

/-- The second word of the next state tells that the two words were equal, then its first word that they were 0. -/
theorem stepXR128_eq_zero {S : XR128} (h : stepXR128 S = ⟨0, 0⟩) : S = ⟨0, 0⟩ := by
  obtain ⟨a, b⟩ := S
  obtain rfl : b = a := BitVec.xor_eq_zero_iff.mp (rotl_eq_zero (by decide) (by decide) (congrArg XR128.s1 h))
  rw [stepXR128_diagonal] at h
  obtain rfl : b = 0#64 := rotl_eq_zero (by decide) (by decide) (congrArg XR128.s0 h)
  rfl

/-! ### JUMP on the two-word variants (45_jump.md R203) -/

theorem walkXR128_cons (c : Bool) (cs : List Bool) (A S : XR128) :
    walkXR128 (c :: cs) A S = walkXR128 cs (if c then A.xor S else A) (stepXR128 S) := rfl

/-- JUMP's walk is linear in the accumulator and the working state together. -/
theorem walkXR128_xor (cs : List Bool) (A B S T : XR128) :
    walkXR128 cs (A.xor B) (S.xor T) = (walkXR128 cs A S).xor (walkXR128 cs B T) := by
  induction cs generalizing A B S T with
  | nil => rfl
  | cons c cs ih =>
    have hA : (if c then (A.xor B).xor (S.xor T) else A.xor B) =
        (if c then A.xor S else A).xor (if c then B.xor T else B) := by
      cases c
      · rfl
      · exact XR128.xor_xor_xor_comm A B S T
    rw [walkXR128_cons, hA, stepXR128_xor, ih, ← walkXR128_cons, ← walkXR128_cons]

/-- JUMP's walk commutes with the transition. -/
theorem walkXR128_step (cs : List Bool) (A S : XR128) :
    walkXR128 cs (stepXR128 A) (stepXR128 S) = stepXR128 (walkXR128 cs A S) := by
  induction cs generalizing A S with
  | nil => simp only [walkXR128]
  | cons c cs ih =>
    have hA : (if c then (stepXR128 A).xor (stepXR128 S) else stepXR128 A) = stepXR128 (if c then A.xor S else A) := by
      rw [← stepXR128_xor, apply_ite stepXR128]
    rw [walkXR128_cons, walkXR128_cons, hA, ih]

/-- p(M)·S for the xoroshiro128 transition M and the polynomial with the coefficients `cs`. -/
def walkFromXR128 (cs : List Bool) (S : XR128) : XR128 := walkXR128 cs ⟨0, 0⟩ S

theorem walkFromXR128_xor (cs : List Bool) (S T : XR128) :
    walkFromXR128 cs (S.xor T) = (walkFromXR128 cs S).xor (walkFromXR128 cs T) :=
  walkXR128_xor cs ⟨0, 0⟩ ⟨0, 0⟩ S T

theorem walkFromXR128_zero (cs : List Bool) : walkFromXR128 cs ⟨0, 0⟩ = ⟨0, 0⟩ := by
  have h := walkFromXR128_xor cs ⟨0, 0⟩ ⟨0, 0⟩
  rwa [XR128.xor_self, XR128.xor_self] at h

theorem walkFromXR128_step (cs : List Bool) (S : XR128) :
    walkFromXR128 cs (stepXR128 S) = stepXR128 (walkFromXR128 cs S) := by
  rw [walkFromXR128, ← stepXR128_zero, walkXR128_step, walkFromXR128]

/-- JUMP on a two-word state. -/
def jumpXR128 (S : XR128) : XR128 := walkFromXR128 (polyBits JUMP_XR128) S

/-- The polynomial x^(2^128 - 1 - 2^64) reduced by the characteristic polynomial of the transition, whose walk undoes JUMP. -/
def UNJUMP_XR128 : List Word64 := [0x38790d3e32e2dc33, 0x175b5cd55018b10b]

/-- JUMP and then the walk that undoes it. -/
def roundTripXR128 (S : XR128) : XR128 := walkFromXR128 (polyBits UNJUMP_XR128) (jumpXR128 S)

theorem roundTripXR128_xor (S T : XR128) :
    roundTripXR128 (S.xor T) = (roundTripXR128 S).xor (roundTripXR128 T) := by
  simp only [roundTripXR128, jumpXR128, walkFromXR128_xor]

theorem roundTripXR128_zero : roundTripXR128 ⟨0, 0⟩ = ⟨0, 0⟩ := by
  rw [roundTripXR128, jumpXR128, walkFromXR128_zero, walkFromXR128_zero]

theorem roundTripXR128_step (S : XR128) : roundTripXR128 (stepXR128 S) = stepXR128 (roundTripXR128 S) := by
  simp only [roundTripXR128, jumpXR128, walkFromXR128_step]

/-- The check of the one fact that is about the constants of 45_jump.md R201: by linearity and by `xr128_from_diagonals`, the
64 diagonal states of one bit stand for all states. -/
theorem roundTripXR128_bit : ∀ i : Fin 64,
    roundTripXR128 ⟨BitVec.twoPow 64 i, BitVec.twoPow 64 i⟩ = ⟨BitVec.twoPow 64 i, BitVec.twoPow 64 i⟩ := by
  decide +kernel

theorem roundTripXR128_diagonal (c : Word64) : roundTripXR128 ⟨c, c⟩ = ⟨c, c⟩ := by
  induction c using word_induction with
  | zero => exact roundTripXR128_zero
  | bit i hi => exact roundTripXR128_bit ⟨i, hi⟩
  | xor a b ha hb =>
    have h := roundTripXR128_xor ⟨a, a⟩ ⟨b, b⟩
    rwa [ha, hb] at h

/-- Every state is the transition of a diagonal state, exclusive-or a diagonal state. -/
theorem xr128_from_diagonals (S : XR128) :
    S = (stepXR128 ⟨rotl (S.s0 ^^^ S.s1) 40, rotl (S.s0 ^^^ S.s1) 40⟩).xor ⟨S.s1, S.s1⟩ := by
  have h : rotl (rotl (S.s0 ^^^ S.s1) 40) 24 = S.s0 ^^^ S.s1 := rotl_rotl_sub _ (by decide) (by decide)
  rw [stepXR128_diagonal, h]
  simp [XR128.xor]

theorem roundTripXR128_eq (S : XR128) : roundTripXR128 S = S := by
  conv_lhs => rw [xr128_from_diagonals S, roundTripXR128_xor, roundTripXR128_step]
  rw [roundTripXR128_diagonal, roundTripXR128_diagonal, ← xr128_from_diagonals S]

theorem jumpXR128_eq_zero {S : XR128} (h : jumpXR128 S = ⟨0, 0⟩) : S = ⟨0, 0⟩ := by
  rw [← roundTripXR128_eq S, roundTripXR128, h, walkFromXR128_zero]

end Sys2Proof.Machine
end

section
/-! Legal words of the state register: what SEED, SEED_U64, the transition and JUMP put into S (10_state.md R21, R32). -/

namespace Sys2Proof.Machine

open Sys2Proof.Claims

/-- The words S may hold on a seeded instance of variant `v`: the variant's own (R21), not the all-zero two words (R32). -/
structure StateReg.Legal (v : Variant) (S : StateReg) : Prop where
  fits : S.fits v = true
  ne_zero : S ≠ .xr128 ⟨0, 0⟩

theorem isXoroshiro_iff {v : Variant} : v.isXoroshiro = true ↔ isXR128 v := by
  cases v <;> simp [Variant.isXoroshiro, isXR128]

theorem fits_xr128_iff {v : Variant} {S : XR128} : (StateReg.xr128 S).fits v = true ↔ isXR128 v := by
  simp [StateReg.fits]

theorem StateReg.Legal.ne_bot {v : Variant} {S : StateReg} (h : S.Legal v) : S ≠ .bot := by
  rintro rfl
  exact Bool.false_ne_true h.fits

theorem StateReg.Legal.exists_xr128 {v : Variant} {S : StateReg} (h : S.Legal v) (hv : isXR128 v) :
    ∃ T : XR128, S = .xr128 T ∧ T ≠ ⟨0, 0⟩ := by
  obtain ⟨hfits, hne⟩ := h
  cases S with
  | xr128 T => exact ⟨T, rfl, fun h => hne (h ▸ rfl)⟩
  | bot | sm64 _ | x128 _ | vec _ => rcases hv with rfl | rfl <;> cases hfits

/-! ### The transition and JUMP -/

theorem stepOf_eq_xr128 {v : Variant} {S : StateReg} {T : XR128} (h : stepOf v S = some (.xr128 T)) :
    ∃ S0, S = .xr128 S0 ∧ T = stepXR128 S0 := by
  cases v <;> cases S <;> simp_all [stepOf]

theorem jumpOf_eq_xr128 {v : Variant} {S : StateReg} {T : XR128} (h : jumpOf v S = some (.xr128 T)) :
    ∃ S0, S = .xr128 S0 ∧ T = jumpXR128 S0 := by
  cases v <;> cases S <;> simp_all [jumpOf, jumpXR128, walkFromXR128]

theorem stepOf_legal {v : Variant} {S S' : StateReg} (h : stepOf v S = some S') (hS : S.Legal v) : S'.Legal v := by
  refine ⟨stepOf_fits h, ?_⟩
  rintro rfl
  obtain ⟨S0, rfl, h0⟩ := stepOf_eq_xr128 h
  exact hS.ne_zero (congrArg _ (stepXR128_eq_zero h0.symm))

theorem jumpOf_legal {v : Variant} {S S' : StateReg} (h : jumpOf v S = some S') (hS : S.Legal v) : S'.Legal v := by
  refine ⟨jumpOf_fits h, ?_⟩
  rintro rfl
  obtain ⟨S0, rfl, h0⟩ := jumpOf_eq_xr128 h
  exact hS.ne_zero (congrArg _ (jumpXR128_eq_zero h0.symm))

theorem stateAfter_legal {v : Variant} {k : Nat} {S S' : StateReg} (h : stateAfter v k S = some S') (hS : S.Legal v) :
    S'.Legal v := by
  induction k generalizing S with
  | zero =>
    obtain rfl : S = S' := by simpa [stateAfter] using h
    exact hS
  | succ k ih =>
    obtain ⟨S1, h1, h2⟩ := Option.bind_eq_some_iff.mp h
    exact ih h2 (stepOf_legal h1 hS)

theorem extract_legal {v : Variant} {k : Nat} {S S' : StateReg} {os : List OutWord}
    (h : extract v k S = some (os, S')) (hS : S.Legal v) : S'.Legal v :=
  stateAfter_legal (extract_stream h).1 hS

theorem nativeStep_legal {v : Variant} {S S' : StateReg} {o : OutWord} (h : nativeStep v S = some (o, S'))
    (hS : S.Legal v) : S'.Legal v :=
  stepOf_legal (nativeStep_eq_some_iff.mp h).2 hS

/-! ### SEED_U64 (41_splitmix64.md R106) -/

theorem xor_shr_eq_zero {w k : Nat} {x : BitVec w} (hk : 0 < k) (h : x ^^^ shr x k = 0#w) : x = 0#w := by
  have hx : x.toNat = x.toNat / 2 ^ k := by
    conv_lhs => rw [BitVec.xor_eq_zero_iff.mp h]
    rw [shr, BitVec.toNat_ushiftRight, Nat.shiftRight_eq_div_pow]
  refine BitVec.eq_of_toNat_eq (Nat.eq_zero_of_not_pos fun hpos => ?_)
  exact absurd hx (Nat.div_lt_self hpos (Nat.one_lt_two_pow hk.ne')).ne'

theorem mix_eq_zero {z : Word64} (h : mix z = 0) : z = 0 := by
  have h1 : IsUnit MIX1 := .of_mul_eq_one 0x96de1b173f119089 (by decide)
  have h2 : IsUnit MIX2 := .of_mul_eq_one 0x319642b2d24d8ec3 (by decide)
  have hz := h1.mul_left_eq_zero.mp (xor_shr_eq_zero (by decide) (h2.mul_left_eq_zero.mp (xor_shr_eq_zero (by decide) h)))
  exact xor_shr_eq_zero (by decide) hz

/-- The two words are the outputs for two distinct counters, and `mix` answers 0 for one counter only. -/
theorem expandXR128_ne_zero (v : Word64) : expandXR128 v ≠ ⟨0, 0⟩ := by
  intro h
  have h0 : v + GAMMA = 0 := mix_eq_zero (congrArg XR128.s0 h)
  have h1 : v + GAMMA + GAMMA = 0 := mix_eq_zero (congrArg XR128.s1 h)
  rw [h0] at h1
  exact absurd h1 (by decide)

theorem seedU64State_legal (variant : Variant) (v : Word64) : (seedU64State variant v).Legal variant where
  fits := by cases variant <;> rfl
  ne_zero := by
    have hx : StateReg.xr128 (expandXR128 v) ≠ .xr128 ⟨0, 0⟩ := fun h => expandXR128_ne_zero v (StateReg.xr128.inj h)
    cases variant with
    | XR128SS | XR128P => exact hx
    | SM64 | X128SS | X128P | X128SS_V => exact nofun

/-! ### SEED (44_engine_commands.md R165-R167) -/

theorem zeroSeed_iff {v : Variant} {T : StateReg} : zeroSeed v T = true ↔ isXR128 v ∧ T = .xr128 ⟨0, 0⟩ := by
  simp [zeroSeed, isXoroshiro_iff]

theorem decodeSeed_legal {v : Variant} {beats : List Word} {T : StateReg} (h : decodeSeed v beats = some T)
    (hz : zeroSeed v T = false) : T.Legal v := by
  refine ⟨decodeSeed_fits h, ?_⟩
  rintro rfl
  have hv : isXR128 v := fits_xr128_iff.mp (decodeSeed_fits h)
  exact Bool.false_ne_true (hz.symm.trans (zeroSeed_iff.mpr ⟨hv, rfl⟩))

theorem concat_eq_zero {hi lo : Word} (h : concat hi lo = 0) : hi = 0 ∧ lo = 0 := by
  have hhi := high32_concat hi lo
  have hlo := low32_concat hi lo
  rw [h] at hhi hlo
  exact ⟨hhi.symm, hlo.symm⟩

theorem decodeSeed_xr128 {v : Variant} (hv : isXR128 v) (b0 b1 b2 b3 : Word) :
    decodeSeed v [b0, b1, b2, b3] = some (.xr128 ⟨concat b1 b0, concat b3 b2⟩) := by
  have h0 := seedWord_word64 [b0, b1, b2, b3] 0 b0 b1 rfl rfl
  have h1 := seedWord_word64 [b0, b1, b2, b3] 1 b2 b3 rfl rfl
  rcases hv with rfl | rfl <;> simp [decodeSeed, seedState, Variant.seedBytes, Variant.stateLen, Variant.width, h0, h1]

theorem decodeSeed_length {v : Variant} {beats : List Word} {T : StateReg} (h : decodeSeed v beats = some T) :
    beats.length = v.seedBytes / 4 := by
  unfold decodeSeed at h
  split at h
  · assumption
  · cases h

/-- Only four zero beats decode to the all-zero two words. -/
theorem beats_of_zeroSeed {v : Variant} {beats : List Word} (hv : isXR128 v)
    (h : decodeSeed v beats = some (.xr128 ⟨0, 0⟩)) : beats = [0, 0, 0, 0] := by
  have hlen : beats.length = 4 := by rw [decodeSeed_length h]; rcases hv with rfl | rfl <;> rfl
  obtain ⟨b0, b1, b2, b3, rfl⟩ : ∃ b0 b1 b2 b3, beats = [b0, b1, b2, b3] := by
    match beats, hlen with
    | [b0, b1, b2, b3], _ => exact ⟨b0, b1, b2, b3, rfl⟩
  rw [decodeSeed_xr128 hv] at h
  simp only [Option.some.injEq, StateReg.xr128.injEq, XR128.mk.injEq] at h
  obtain ⟨h0, h1⟩ := h
  obtain ⟨rfl, rfl⟩ := concat_eq_zero h0
  obtain ⟨rfl, rfl⟩ := concat_eq_zero h1
  rfl

end Sys2Proof.Machine
end

section
/-! How every command ends: its response, and LIFE, ZSF and S after it (10_state.md R24, R25, R32). -/

namespace Sys2Proof.Machine

open Sys2Proof.Claims

/-! ### The endings of a command's own rule -/

/-- How the rule of command `i` ends on instance `x`, once the common checks are passed: OK with the registers as they were;
OK with a new seed; OK with the stream advanced; or the zero seed rejected. -/
inductive RuleEnding (i : Instr) (x : Instance) : Instance → Prop
  | respond (outs : List Word) (life : lifeAfter x.LIFE i .OK = x.LIFE) : RuleEnding i x (x.respond outs)
  | accept (T : StateReg) (writes : writesState i) (life : lifeAfter x.LIFE i .OK = .SEEDED)
      (legal : T.Legal x.build.variant) : RuleEnding i x (x.accept T)
  | advance (T : StateReg) (outs : List Word) (needs : needsASeed i) (life : lifeAfter x.LIFE i .OK = .ADVANCING)
      (legal : x.S.Legal x.build.variant → T.Legal x.build.variant) : RuleEnding i x (x.advance T outs)
  | reject (variant : isXR128 x.build.variant) (seed : i = .seed [0#32, 0#32, 0#32, 0#32]) :
      RuleEnding i x (x.raise .ZERO_SEED)

theorem ruleEnding_of_ruleOf {i : Instr} {x y : Instance} (h : ruleOf i x = .next y) : RuleEnding i x y := by
  cases i with
  | seed beats =>
    obtain ⟨T, hT, ⟨hz, rfl⟩ | ⟨hz, rfl⟩⟩ := seedRule_eq_next_iff.mp h
    · obtain ⟨hv, rfl⟩ := zeroSeed_iff.mp hz
      exact .reject hv (congrArg Instr.seed (beats_of_zeroSeed hv hT))
    · exact .accept T (.inl ⟨beats, rfl⟩) rfl (decodeSeed_legal hT hz)
  | seedU64 v =>
    cases h
    exact .accept _ (.inr (.inl ⟨v, rfl⟩)) rfl (seedU64State_legal _ v)
  | nextU32 =>
    obtain ⟨o, S', hS, rfl⟩ := nextU32Rule_eq_next_iff.mp h
    exact .advance S' _ (by simp [needsASeed]) rfl (nativeStep_legal hS)
  | nextU64 =>
    obtain ⟨os, S', r, hS, -, rfl⟩ := nextU64Rule_eq_next_iff.mp h
    exact .advance S' _ (by simp [needsASeed]) rfl (extract_legal hS)
  | fill len =>
    obtain ⟨os, S', hS, ⟨hlen, rfl⟩ | ⟨hlen, rfl⟩⟩ := fillRule_eq_next_iff.mp h
    · exact .respond [] (if_pos hlen)
    · exact .advance S' _ (by simp [needsASeed]) (if_neg hlen) (extract_legal hS)
  | jump =>
    obtain ⟨S', hS, rfl⟩ := jumpRule_eq_next_iff.mp h
    exact .advance S' _ (by simp [needsASeed]) rfl (jumpOf_legal hS)
  | stateRead =>
    obtain ⟨bytes, -, rfl⟩ := stateReadRule_eq_next_iff.mp h
    exact .respond _ rfl
  | readStatus => cases h; exact .respond _ rfl
  | readCap => cases h; exact .respond _ rfl

/-! ### The response of a command -/

/-- Of all responses, only ERR_ZERO_SEED has the code 1 (30_encoding.md R77). -/
theorem responseWord_eq_one_iff {r : Resp} : responseWord r = 0x00000001#32 ↔ r = .error .ZERO_SEED := by
  rcases r with _ | _ | _ | _ | _ <;> decide

theorem needsASeed_iff {i : Instr} : needsASeed i ↔ needsSeed i.opcode = true := by
  cases i <;> simp [needsASeed, needsSeed, Instr.opcode]

/-- What the response `r` with its out-beats tells of the command `i` that took instance `x` to `y`. -/
structure Answer (i : Instr) (x y : Instance) (r : Resp) (outs : List Word) : Prop where
  tx : y.tx = x.tx ++ responseWord r :: outs
  life : y.LIFE = lifeAfter x.LIFE i r
  zsf : y.ZSF = true ↔ x.ZSF = true ∨ r = .error .ZERO_SEED
  checked : r = .OK → failedCheck i.opcode x = none
  rejected : r = .error .ZERO_SEED → outs = [] ∧ isXR128 x.build.variant ∧ i = .seed [0#32, 0#32, 0#32, 0#32]

theorem answer_of_failedCheck {i : Instr} {x : Instance} {e : Err} (h : failedCheck i.opcode x = some e) :
    Answer i x (x.raise e) (.error e) [] := by
  have he : e ≠ .ZERO_SEED := failedCheck_ne_zeroSeed h
  refine ⟨raise_tx x e, ?_, by simp [he], nofun, fun hr => absurd (Resp.error.inj hr) he⟩
  rw [(raise_keepsRegs x he).LIFE]
  cases e with
  | ZERO_SEED => exact absurd rfl he
  | UNSEEDED | ILLEGAL | UNSUPPORTED => rfl

theorem answer_of_ruleEnding {i : Instr} {x y : Instance} (hc : failedCheck i.opcode x = none)
    (h : RuleEnding i x y) : ∃ r outs, Answer i x y r outs := by
  cases h with
  | respond outs life => exact ⟨.OK, outs, rfl, life.symm, by simp, fun _ => hc, nofun⟩
  | accept T writes life legal => exact ⟨.OK, [], rfl, life.symm, by simp, fun _ => hc, nofun⟩
  | advance T outs needs life legal => exact ⟨.OK, outs, rfl, life.symm, by simp, fun _ => hc, nofun⟩
  | reject variant seed =>
    exact ⟨.error .ZERO_SEED, [], rfl, rfl, by simp, nofun, fun _ => ⟨rfl, variant, seed⟩⟩

/-- Every command that goes on ends with a failed check's error or by its own rule. -/
theorem exec_ending {i : Instr} {s t : State} {x y : Instance} (h : exec i s = .next t) (hx : s.current = some x)
    (hy : t.current = some y) :
    (∃ e, failedCheck i.opcode x = some e ∧ y = x.raise e) ∨ (failedCheck i.opcode x = none ∧ RuleEnding i x y) := by
  obtain ⟨x', y', hx', rfl, hend⟩ := exec_eq_next_iff.mp h
  obtain rfl : x = x' := Option.some.inj (hx.symm.trans hx')
  obtain rfl : y' = y := Option.some.inj ((current_setCurrent s y' hx).symm.trans hy)
  exact hend.imp_right fun ⟨hc, hr⟩ => ⟨hc, ruleEnding_of_ruleOf hr⟩

theorem exec_answer {i : Instr} {s t : State} {x y : Instance} (h : exec i s = .next t) (hx : s.current = some x)
    (hy : t.current = some y) : ∃ r outs, Answer i x y r outs := by
  obtain ⟨e, he, rfl⟩ | ⟨hc, hr⟩ := exec_ending h hx hy
  · exact ⟨_, _, answer_of_failedCheck he⟩
  · exact answer_of_ruleEnding hc hr

/-- The one SEED that is rejected (44_engine_commands.md R166). -/
theorem exec_zeroSeed {s : State} {x : Instance} (hx : s.current = some x) (hv : isXR128 x.build.variant) :
    exec (.seed [0#32, 0#32, 0#32, 0#32]) s = .next (s.setCurrent (x.raise .ZERO_SEED)) := by
  have hc : failedCheck .SEED x = none :=
    failedCheck_eq_none_iff.mpr ⟨by rcases hv with hv | hv <;> simp [supported, hv, Variant.isVector], nofun⟩
  have hr : seedRule [0#32, 0#32, 0#32, 0#32] x = .next (x.raise .ZERO_SEED) :=
    seedRule_eq_next_iff.mpr ⟨_, decodeSeed_xr128 hv 0 0 0 0, .inl ⟨zeroSeed_iff.mpr ⟨hv, rfl⟩, rfl⟩⟩
  exact exec_of_rule hx hc hr

/-! ### Reset -/

theorem reset_of_mem_applyReset {s : State} {y : Instance} (h : y ∈ s.applyReset.engines) :
    ∃ x ∈ s.engines, y = Instance.reset x.build := by
  simp only [State.applyReset, resetOf_engines, List.map_map, List.mem_map] at h
  obtain ⟨x, hx, rfl⟩ := h
  exact ⟨x, hx, rfl⟩

/-- Settles O51: by `exec_answer`, the response alone tells the next LIFE. -/
theorem lifeTransitions : Obligations.LifeTransitions := by
  unfold Obligations.LifeTransitions
  refine ⟨fun i s t x y h hx hy => ?_, fun s rest hi => ⟨_, step_of_reset hi, fun y hy => ?_⟩⟩
  · obtain ⟨r, outs, ha⟩ := exec_answer h hx hy
    refine ⟨r, outs, ha.tx, ha.life, fun hr hn => ?_⟩
    obtain ⟨-, hseeded⟩ := failedCheck_eq_none_iff.mp (ha.checked hr)
    exact hseeded (needsASeed_iff.mp hn)
  · obtain ⟨x, -, rfl⟩ := reset_of_mem_applyReset hy
    exact reset_LIFE x.build

/-- Settles O52: both sides of each equivalence say that the response is ERR_ZERO_SEED, which by `exec_answer` only the
all-zero SEED gets and by `exec_zeroSeed` it does get. -/
theorem zeroSeedFlagIsSticky : Obligations.ZeroSeedFlagIsSticky := by
  unfold Obligations.ZeroSeedFlagIsSticky
  refine ⟨fun i s t x y h hx hy => ?_, fun s rest hi => ⟨_, step_of_reset hi, fun y hy => ?_⟩⟩
  · obtain ⟨r, outs, ha⟩ := exec_answer h hx hy
    have htx : y.tx = x.tx ++ [0x00000001#32] ↔ r = .error .ZERO_SEED := by
      rw [ha.tx, List.append_cancel_left_eq, List.cons.injEq, responseWord_eq_one_iff]
      exact ⟨And.left, fun hr => ⟨hr, (ha.rejected hr).1⟩⟩
    have hseed : r = .error .ZERO_SEED ↔ isXR128 x.build.variant ∧ i = .seed [0#32, 0#32, 0#32, 0#32] := by
      refine ⟨fun hr => (ha.rejected hr).2, ?_⟩
      rintro ⟨hv, rfl⟩
      cases (exec_zeroSeed hx hv).symm.trans h
      obtain rfl : x.raise .ZERO_SEED = y := Option.some.inj ((current_setCurrent s _ hx).symm.trans hy)
      exact htx.mp (raise_tx x .ZERO_SEED)
    exact ⟨ha.zsf.trans (or_congr_right hseed), htx.trans hseed⟩
  · obtain ⟨x, -, rfl⟩ := reset_of_mem_applyReset hy
    exact reset_ZSF x.build

end Sys2Proof.Machine
end

section
/-! The invariant of legal states (10_state.md R21, R25, R32, R35; 46_simd.md R222): it holds at reset, every step keeps it,
so it holds in every run. -/

namespace Sys2Proof.Machine

open Sys2Proof.Claims

/-! ### Legal instances -/

theorem reset_inv (b : Build) : (Instance.reset b).Inv :=
  ⟨by simp, fun h => absurd rfl h, nofun, nofun, fun _ _ => rfl⟩

/-- A seeded instance in a legal state holds legal words. -/
theorem Instance.Inv.legal {x : Instance} (h : x.Inv) (hL : x.LIFE ≠ .UNSEEDED) : x.S.Legal x.build.variant := by
  obtain ⟨hbot, hfits, -, hzero, -⟩ := h
  have hS := hfits fun hS => hL (hbot.mp hS)
  refine ⟨hS, fun h0 => hzero (isXoroshiro_iff.mpr ?_) h0⟩
  rw [h0] at hS
  exact fits_xr128_iff.mp hS

/-- The invariant speaks of the build and the registers alone, not of the port. -/
theorem Instance.Inv.of_keepsRegs {x y : Instance} (h : x.Inv) (hb : y.build = x.build) (hr : KeepsRegs x y) : y.Inv := by
  obtain ⟨hS, hL, hZ⟩ := hr
  simpa only [Instance.Inv, hb, hS, hL, hZ] using h

/-- An instance that gets legal words is legal, where it can be seeded at all (46_simd.md R222). -/
theorem Instance.Inv.of_legal {x y : Instance} (h : x.Inv) (hb : y.build = x.build) (hz : y.ZSF = x.ZSF)
    (hS : y.S.Legal x.build.variant) (hL : y.LIFE ≠ .UNSEEDED)
    (hv : x.build.variant.isVector = true → x.build.hasLaneBlend = true) : y.Inv := by
  obtain ⟨-, -, hzsf, -, -⟩ := h
  simp only [Instance.Inv, hb, hz]
  refine ⟨iff_of_false hS.ne_bot hL, fun _ => hS.fits, hzsf, fun _ => hS.ne_zero, fun hvec hno => ?_⟩
  exact absurd (hv hvec) (by simp [hno])

theorem raise_zeroSeed_inv {x : Instance} (hv : isXR128 x.build.variant) : (x.raise .ZERO_SEED).Inv := by
  exact ⟨by simp, by simp, fun _ => isXoroshiro_iff.mpr hv, by simp, by simp⟩

/-- No command that writes S is supported on the vector unit without the lane blend (44_engine_commands.md R161). -/
theorem hasLaneBlend_of_supported {b : Build} {i : Instr} (hw : writesState i) (hs : supported b i.opcode = true)
    (hv : b.variant.isVector = true) : b.hasLaneBlend = true := by
  have hjump : b.variant.hasJump = false := by
    revert hv; cases b.variant <;> decide
  rcases hw with ⟨_, rfl⟩ | ⟨_, rfl⟩ | rfl | rfl | ⟨_, rfl⟩ | rfl <;>
    simp_all [supported, Instr.opcode]

/-- A command's own rule keeps its instance legal. -/
theorem RuleEnding.inv {i : Instr} {x y : Instance} (hc : failedCheck i.opcode x = none) (h : RuleEnding i x y)
    (hx : x.Inv) : y.Inv := by
  obtain ⟨hs, hseeded⟩ := failedCheck_eq_none_iff.mp hc
  cases h with
  | respond outs life => exact hx.of_keepsRegs (respond_build x outs) (respond_keepsRegs x outs)
  | accept T writes life legal =>
    exact hx.of_legal (accept_build x T) (accept_ZSF x T) legal nofun (hasLaneBlend_of_supported writes hs)
  | advance T outs needs life legal =>
    have hL : x.LIFE ≠ .UNSEEDED := hseeded (needsASeed_iff.mp needs)
    refine hx.of_legal (advance_build x T outs) (advance_ZSF x T outs) (legal (hx.legal hL)) nofun fun hv => ?_
    obtain ⟨-, -, -, -, hvec⟩ := hx
    exact Bool.eq_true_of_not_eq_false fun hno => hL (hvec hv hno)
  | reject variant seed => exact raise_zeroSeed_inv variant

theorem raise_inv {x : Instance} {e : Err} (he : e ≠ .ZERO_SEED) (hx : x.Inv) : (x.raise e).Inv :=
  hx.of_keepsRegs (raise_build x e) (raise_keepsRegs x he)

theorem reset_status (b : Build) : statusWord (Instance.reset b).LIFE (Instance.reset b).ZSF = 0#32 := by
  rw [reset_LIFE, reset_ZSF]
  decide

theorem capWord_mem_capTable (b : Build) : (b.variant, b.hasLaneBlend, capWord b) ∈ capTable := by
  obtain ⟨v, blend⟩ := b
  cases v <;> cases blend <;> decide

/-! ### What one step makes of an instance -/

/-- What one step makes of the instance `x` that it serves or whose port the host uses: the port alone changes, or a command
whose words are taken off the port is carried out. -/
inductive Served (x : Instance) : Instance → Prop
  | port {y : Instance} (build : y.build = x.build) (regs : KeepsRegs x y) : Served x y
  | command {i : Instr} {y : Instance} (rest : List Word)
      (ends : command i.opcode (ruleOf i) { x with rx := rest } = .next y) : Served x y

theorem Served.inv {x y : Instance} (h : Served x y) (hx : x.Inv) : y.Inv := by
  cases h with
  | port build regs => exact hx.of_keepsRegs build regs
  | command rest ends =>
    have hx' : ({ x with rx := rest } : Instance).Inv := hx
    obtain ⟨e, he, rfl⟩ | ⟨hc, hr⟩ := command_eq_next_iff.mp ends
    · exact raise_inv (failedCheck_ne_zeroSeed he) hx'
    · exact RuleEnding.inv hc (ruleEnding_of_ruleOf hr) hx'

/-- Instance `e` of `s` is served and becomes the current one, or its port is used; no other instance changes. -/
def ServesOne (s t : State) : Prop :=
  ∃ e x y, s.engines[e]? = some x ∧ Served x y ∧ t.engines = s.engines.set e y ∧ (t.cur = e ∨ t.cur = s.cur)

theorem transact_servesOne {s t : State} {e : Nat} (h : transact s e = .next t) : t = s ∨ ServesOne s t := by
  obtain ⟨x, hx, ⟨-, rfl⟩ | ⟨i, rest, -, h⟩ | ⟨r, rest, -, rfl⟩⟩ := transact_eq_next h
  · exact .inl rfl
  · rw [exec_eq, onCurrent_eq_next_iff] at h
    obtain ⟨x', y, hx', hy, rfl⟩ := h
    obtain rfl := Option.some.inj ((serve_current s e x rest hx).symm.trans hx')
    exact .inr ⟨e, x, y, hx, .command rest hy, by simp, .inl rfl⟩
  · exact .inr ⟨e, x, ({ x with rx := rest } : Instance).raise .ILLEGAL, hx, .port rfl ⟨rfl, rfl, rfl⟩, by simp, .inl rfl⟩

theorem onPort_servesOne {s t : State} {e : Nat} {f : Instance → Instance} (h : onPort s e f = .next t)
    (hb : ∀ x, (f x).build = x.build) (hr : ∀ x, KeepsRegs x (f x)) : ServesOne s t := by
  unfold onPort at h
  split at h
  · cases h
  · next x hx =>
    cases h
    exact ⟨e, x, f x, hx, .port (hb x) (hr x), rfl, .inr rfl⟩

theorem applyInput_servesOne {s t : State} {h : HostInput} (hr : h ≠ .reset) (ht : applyInput s h = .next t) :
    ServesOne s t := by
  cases h with
  | send e w => exact onPort_servesOne ht (fun _ => rfl) fun _ => ⟨rfl, rfl, rfl⟩
  | take e => exact onPort_servesOne ht (fun _ => rfl) fun _ => ⟨rfl, rfl, rfl⟩
  | reset => exact absurd rfl hr

/-- Everything a step can do to the instances: reset them all, nothing, or serve one. -/
theorem step_eq_next {s t : State} (h : step s = .next t) :
    (∃ rest, t = { s.applyReset with inputs := rest }) ∨ t = s ∨ ServesOne s t := by
  obtain ⟨rest, -, hs⟩ | ⟨e, -, -, hs⟩ | ⟨h', rest, -, hr, -, hs⟩ | ⟨-, -, hs⟩ := step_cases s <;> rw [hs] at h
  · cases h; exact .inl ⟨rest, rfl⟩
  · exact .inr (transact_servesOne h)
  · exact .inr (.inr (applyInput_servesOne (s := { s with inputs := rest }) hr h))
  · cases h; exact .inr (.inl rfl)

/-! ### Every step keeps the invariant -/

theorem step_keeps_instances {s t : State} (h : step s = .next t) (hs : ∀ x ∈ s.engines, x.Inv) :
    ∀ x ∈ t.engines, x.Inv := by
  obtain ⟨rest, rfl⟩ | rfl | ⟨e, x, y, hx, hy, he, -⟩ := step_eq_next h
  · intro z hz
    obtain ⟨x, -, rfl⟩ := reset_of_mem_applyReset hz
    exact reset_inv x.build
  · exact hs
  · intro z hz
    rw [he] at hz
    obtain hz | rfl := List.mem_or_eq_of_mem_set hz
    · exact hs z hz
    · exact hy.inv (hs x (List.mem_of_getElem? hx))

theorem step_keeps_cur {s t : State} (h : step s = .next t) (hs : s.cur < s.engines.length) :
    t.cur < t.engines.length := by
  obtain ⟨rest, rfl⟩ | rfl | ⟨e, x, y, hx, -, he, hcur⟩ := step_eq_next h
  · have hpos : 0 < s.engines.length := Nat.zero_lt_of_lt hs
    simpa [State.applyReset] using hpos
  · exact hs
  · have hlt : e < s.engines.length := (List.getElem?_eq_some_iff.mp hx).1
    rw [he, List.length_set]
    rcases hcur with hcur | hcur <;> rw [hcur]
    · exact hlt
    · exact hs

theorem resetOf_instances (builds : List Build) : ∀ x ∈ (State.resetOf builds).engines, x.Inv := by
  intro x hx
  obtain ⟨b, -, rfl⟩ := List.mem_map.mp hx
  exact reset_inv b

theorem run_succ_eq_next {k : Nat} {s t : State} (h : Host.Core.run core (k + 1) s = .next t) :
    ∃ u, step s = .next u ∧ Host.Core.run core k u = .next t := by
  replace h := (Host.Core.run.eq_2 core s k).symm.trans h
  split at h
  · next u hu => exact ⟨u, hu, h⟩
  · cases h
  · cases h

/-- What holds before a run and is kept by every step holds after any number of steps. -/
theorem run_keeps {P : State → Prop} (hstep : ∀ s t, P s → step s = .next t → P t) {k : Nat} {s t : State} (hs : P s)
    (h : Host.Core.run core k s = .next t) : P t := by
  induction k generalizing s with
  | zero => cases h; exact hs
  | succ k ih =>
    obtain ⟨u, hu, ht⟩ := run_succ_eq_next h
    exact ih (hstep s u hs hu) ht

/-- Settles O4: by `step_keeps_cur` and `step_keeps_instances`. -/
theorem stepKeepsLegalState : Obligations.StepKeepsLegalState := by
  unfold Obligations.StepKeepsLegalState
  intro s t ⟨hcur, hs⟩ h
  exact ⟨step_keeps_cur h hcur, step_keeps_instances h hs⟩

/-- Settles O5: the invariant of the instances holds along the run, also in the configuration with no instance. -/
theorem xoroshiroStateNeverZeroInAnyRun : Obligations.XoroshiroStateNeverZeroInAnyRun := by
  unfold Obligations.XoroshiroStateNeverZeroInAnyRun
  intro builds inputs k t h x hx hv hL
  have hinv : ∀ x ∈ t.engines, x.Inv :=
    run_keeps (P := fun s => ∀ x ∈ s.engines, x.Inv) (s := { State.resetOf builds with inputs := inputs })
      (fun s t hs h => step_keeps_instances h hs) (resetOf_instances builds) h
  exact ((hinv x hx).legal hL).exists_xr128 hv

/-- Settles O1: CAP is the constant of its row for each of the twelve builds, every other value is that of
`Instance.reset`. -/
theorem resetValuesOfEveryInstance : Obligations.ResetValuesOfEveryInstance := by
  unfold Obligations.ResetValuesOfEveryInstance
  refine ⟨rfl, fun builds => ⟨by simp, fun e b hb => ?_⟩⟩
  refine ⟨Instance.reset b, by simp [hb], rfl, rfl, rfl, rfl, reset_status b, capWord_mem_capTable b, rfl, rfl⟩

/-- Settles O3. -/
theorem legalStateAtReset : Obligations.LegalStateAtReset := by
  unfold Obligations.LegalStateAtReset
  intro builds hne
  exact ⟨by simpa using List.length_pos_iff.mpr hne, resetOf_instances builds⟩

end Sys2Proof.Machine
end

section
/-! FILL of whole 64-bit words against NEXT_U64, and FILL of 4 bytes against NEXT_U32 (20_memory.md R54, R55;
44_engine_commands.md R176, R180, R185). -/

namespace Sys2Proof.Machine

open Sys2Proof.Claims

/-! ### The halves of a 64-bit word -/

theorem low32_eq_lowHalf (v : Word64) : low32 v = lowHalf v := by
  rw [low32, lowHalf, BitVec.extractLsb', Nat.shiftRight_zero]

theorem high32_eq_highHalf (v : Word64) : high32 v = highHalf v := by
  rw [high32, highHalf, BitVec.extractLsb', Nat.shiftRight_eq_div_pow]

/-- The bytes of a 64-bit word are those of its low half, then those of its high half. -/
theorem leBytes_halves (v : Word64) : leBytes v = leBytes (low32 v) ++ leBytes (high32 v) := by
  rw [← leBytes_concat, concat_halves]

theorem beatBytes_append (as bs : List Word) : beatBytes (as ++ bs) = beatBytes as ++ beatBytes bs :=
  List.flatMap_append

theorem beatBytes_beats64 (v : Word64) : beatBytes (beats64 v) = leBytes v := by
  rw [leBytes_halves, beats64, beatBytes_cons, beatBytes_cons, beatBytes, List.flatMap_nil, List.append_nil]

/-! ### The native steps of one 64-bit word -/

theorem width_cases (v : Variant) : v.width = 64 ∨ v.width = 32 := by
  cases v <;> decide

theorem outOf_of_width_64 {v : Variant} {S : StateReg} {o : OutWord} (h : outOf v S = some o) (hv : v.width = 64) :
    ∃ a, o = .w64 a := by
  cases v <;> cases S <;> simp_all [outOf, Variant.width, eq_comm (b := o)]

theorem outOf_of_width_32 {v : Variant} {S : StateReg} {o : OutWord} (h : outOf v S = some o) (hv : v.width = 32) :
    ∃ a, o = .w32 a := by
  cases v <;> cases S <;> simp_all [outOf, Variant.width, eq_comm (b := o)]

theorem extract_one_eq_some_iff {v : Variant} {S S' : StateReg} {os : List OutWord} :
    extract v 1 S = some (os, S') ↔ ∃ o, nativeStep v S = some (o, S') ∧ os = [o] := by
  rw [extract_succ_eq_some_iff]
  simp [extract]

/-- The outputs that NEXT_U64 takes make one 64-bit word, and their bytes are the bytes of that word. -/
theorem widen_of_extract {v : Variant} {S S' : StateReg} {os : List OutWord}
    (h : extract v (steps64 v) S = some (os, S')) : ∃ r, widen os = some r ∧ os.flatMap outBytes = leBytes r := by
  rcases width_cases v with hv | hv <;> rw [steps64, hv] at h
  · obtain ⟨o, h1, rfl⟩ := extract_one_eq_some_iff.mp h
    obtain ⟨a, rfl⟩ := outOf_of_width_64 (nativeStep_eq_some_iff.mp h1).1 hv
    exact ⟨a, rfl, by simp [outBytes]⟩
  · obtain ⟨o, S1, os', h1, h2, rfl⟩ := extract_succ_eq_some_iff.mp h
    obtain ⟨o', h3, rfl⟩ := extract_one_eq_some_iff.mp h2
    obtain ⟨a, rfl⟩ := outOf_of_width_32 (nativeStep_eq_some_iff.mp h1).1 hv
    obtain ⟨b, rfl⟩ := outOf_of_width_32 (nativeStep_eq_some_iff.mp h3).1 hv
    exact ⟨concat b a, rfl, by simp [outBytes, leBytes_concat]⟩

theorem extract_add {v : Variant} {m n : Nat} {S S1 S2 : StateReg} {as bs : List OutWord}
    (ha : extract v m S = some (as, S1)) (hb : extract v n S1 = some (bs, S2)) :
    extract v (m + n) S = some (as ++ bs, S2) := by
  induction m generalizing S as with
  | zero =>
    cases ha
    simpa using hb
  | succ m ih =>
    obtain ⟨o, S0, as', h0, h1, rfl⟩ := extract_succ_eq_some_iff.mp ha
    rw [Nat.succ_add]
    exact extract_succ_eq_some_iff.mpr ⟨o, S0, as' ++ bs, h0, ih h1, rfl⟩

/-- The native steps of NEXT_U64, taken once for each word of the list, return the list and take S to S'
(44_engine_commands.md R180). -/
inductive Words64 (v : Variant) : List Word64 → StateReg → StateReg → Prop
  | nil (S : StateReg) : Words64 v [] S S
  | cons {os : List OutWord} {r : Word64} {rs : List Word64} {S S1 S2 : StateReg}
      (steps : extract v (steps64 v) S = some (os, S1)) (word : widen os = some r) (more : Words64 v rs S1 S2) :
      Words64 v (r :: rs) S S2

theorem Words64.exists_of_fits {v : Variant} (k : Nat) {S : StateReg} (hS : S.fits v = true) :
    ∃ rs S', rs.length = k ∧ Words64 v rs S S' := by
  induction k generalizing S with
  | zero => exact ⟨[], S, rfl, .nil S⟩
  | succ k ih =>
    obtain ⟨os, S1, h1, hf⟩ := extract_total (steps64 v) hS
    obtain ⟨r, hr, -⟩ := widen_of_extract h1
    obtain ⟨rs, S2, hlen, hrs⟩ := ih hf
    exact ⟨r :: rs, S2, congrArg (· + 1) hlen, .cons h1 hr hrs⟩

/-- The native outputs behind a list of 64-bit words have the bytes of the words' beats. -/
theorem Words64.extract {v : Variant} {rs : List Word64} {S S' : StateReg} (h : Words64 v rs S S') :
    ∃ os, extract v (steps64 v * rs.length) S = some (os, S') ∧
      os.flatMap outBytes = beatBytes (rs.flatMap beats64) := by
  induction h with
  | nil S => exact ⟨[], rfl, rfl⟩
  | @cons os r rs S S1 S2 h1 hr _ ih =>
    obtain ⟨os', h2, hbytes⟩ := ih
    obtain ⟨r', hr', hword⟩ := widen_of_extract h1
    obtain rfl : r = r' := Option.some.inj (hr.symm.trans hr')
    refine ⟨os ++ os', ?_, ?_⟩
    · rw [List.length_cons, Nat.mul_succ, Nat.add_comm]
      exact extract_add h1 h2
    · rw [List.flatMap_append, hbytes, hword, List.flatMap_cons, beatBytes_append, beatBytes_beats64]

/-! ### Both commands on an instance that supports them -/

theorem failedCheck_scalar {i : Instr} {x : Instance} (hi : i = .nextU32 ∨ i = .nextU64 ∨ ∃ len, i = .fill len)
    (hv : x.build.variant ≠ .X128SS_V) (hL : x.LIFE ≠ .UNSEEDED) : failedCheck i.opcode x = none := by
  have hvec : x.build.variant.isVector = false := by
    cases h : x.build.variant <;> simp_all [Variant.isVector]
  refine failedCheck_eq_none_iff.mpr ⟨?_, fun _ => hL⟩
  rcases hi with rfl | rfl | ⟨len, rfl⟩ <;> simp [supported, Instr.opcode, hvec]

/-- The LIFE after commands that advance the stream by the words of the list (10_state.md R24). -/
def lifeAfterWords (life : Life) (rs : List Word64) : Life := if rs = [] then life else .ADVANCING

@[simp] theorem lifeAfterWords_nil (life : Life) : lifeAfterWords life [] = life := rfl

@[simp] theorem lifeAfterWords_cons (life : Life) (r : Word64) (rs : List Word64) :
    lifeAfterWords life (r :: rs) = .ADVANCING := rfl

@[simp] theorem lifeAfterWords_advancing (rs : List Word64) : lifeAfterWords .ADVANCING rs = .ADVANCING := ite_self _

theorem setCurrent_self {s : State} {x : Instance} (hx : s.current = some x) : s.setCurrent x = s := by
  obtain ⟨hlt, rfl⟩ := List.getElem?_eq_some_iff.mp hx
  simp [State.setCurrent]

theorem execAll_nextU64 {rs : List Word64} {s : State} {x : Instance} {S' : StateReg} (hx : s.current = some x)
    (hv : x.build.variant ≠ .X128SS_V) (hL : x.LIFE ≠ .UNSEEDED) (h : Words64 x.build.variant rs x.S S') :
    execAll (List.replicate rs.length .nextU64) s = .next (s.setCurrent
      { x with
        S := S'
        LIFE := lifeAfterWords x.LIFE rs
        tx := x.tx ++ rs.flatMap fun r => responseWord .OK :: beats64 r }) := by
  induction rs generalizing s x with
  | nil =>
    cases h
    simpa using (setCurrent_self hx).symm
  | cons r rs ih =>
    cases h with
    | @cons os _ _ _ S1 _ h1 hr hrs =>
      have hrule : ruleOf .nextU64 x = .next (x.advance S1 (beats64 r)) :=
        nextU64Rule_eq_next_iff.mpr ⟨os, S1, r, h1, hr, rfl⟩
      have hexec := exec_of_rule hx (failedCheck_scalar (.inr (.inl rfl)) hv hL) hrule
      rw [List.length_cons, List.replicate_succ, execAll_cons hexec,
        ih (x := x.advance S1 (beats64 r)) (current_setCurrent s _ hx) hv nofun hrs]
      simp [Instance.advance, Instance.respond]

theorem fillSteps_words (v : Variant) (k : Nat) : fillSteps v (8 * k) = steps64 v * k := by
  rcases width_cases v with hv | hv <;> simp only [fillSteps, steps64, hv] <;> omega

theorem exec_fill_words {rs : List Word64} {s : State} {x : Instance} {S' : StateReg} (hx : s.current = some x)
    (hv : x.build.variant ≠ .X128SS_V) (hL : x.LIFE ≠ .UNSEEDED) (h : Words64 x.build.variant rs x.S S')
    (hlen : 8 * rs.length < 2 ^ 24) :
    exec (.fill (BitVec.ofNat 24 (8 * rs.length))) s = .next (s.setCurrent
      { x with
        S := S'
        LIFE := lifeAfterWords x.LIFE rs
        tx := x.tx ++ responseWord .OK :: rs.flatMap beats64 }) := by
  have hnat : (BitVec.ofNat 24 (8 * rs.length)).toNat = 8 * rs.length := by
    rw [BitVec.toNat_ofNat, Nat.mod_eq_of_lt hlen]
  obtain ⟨os, hos, hbytes⟩ := h.extract
  have hfill : packBeats (fillBytes os (8 * rs.length)) = rs.flatMap beats64 := by
    have hall : (beatBytes (rs.flatMap beats64)).length ≤ 8 * rs.length := by
      simp [beats64, List.length_flatMap]; omega
    rw [fillBytes, hbytes, List.take_of_length_le hall, packBeats_beatBytes]
  refine exec_of_rule hx (failedCheck_scalar (.inr (.inr ⟨_, rfl⟩)) hv hL) (fillRule_eq_next_iff.mpr ⟨os, S', ?_, ?_⟩)
  · rw [hnat, fillSteps_words, hos]
  · cases h with
    | nil => exact .inl ⟨rfl, rfl⟩
    | cons _ _ _ =>
      refine .inr ⟨fun h0 => absurd (hnat.symm.trans (congrArg BitVec.toNat h0)) (by simp), ?_⟩
      rw [hnat, hfill]
      rfl

/-- FILL of 4 bytes of a native 64-bit word sends its low half. -/
theorem packBeats_fillBytes_four (o : Word64) : packBeats (fillBytes [.w64 o] 4) = [low32 o] := by
  have htake : fillBytes [.w64 o] 4 = beatBytes [low32 o] := by
    simp [fillBytes, outBytes, leBytes_halves o, beatBytes]
  rw [htake, packBeats_beatBytes]

/-- Settles O42: k NEXT_U64 and FILL of 8·k bytes take the native steps of the same 64-bit words (`Words64`); the halves of
one xoroshiro output are NEXT_U32's and FILL's. -/
theorem fillOfWholeWords : Obligations.FillOfWholeWords := by
  unfold Obligations.FillOfWholeWords
  refine ⟨fun k s x hx hv hL hS hk => ?_, fun s x hx hv hL hS => ?_⟩
  · obtain ⟨rs, S', rfl, h⟩ := Words64.exists_of_fits k hS
    refine ⟨rs.map fun r => (low32 r, high32 r), S', lifeAfterWords x.LIFE rs, List.length_map _, ?_, ?_⟩
    · rw [exec_fill_words hx hv hL h hk, List.flatMap_map]
      rfl
    · rw [execAll_nextU64 hx hv hL h, List.flatMap_map]
      rfl
  · obtain ⟨hwidth, hscalar, hsm⟩ :
        x.build.variant.width = 64 ∧ x.build.variant ≠ .X128SS_V ∧ x.build.variant ≠ .SM64 := by
      rcases hv with hv | hv <;> simp [hv, Variant.width]
    obtain ⟨⟨o, S'⟩, hstep⟩ := Option.isSome_iff_exists.mp ((nativeStep_isSome x.build.variant x.S).trans hS)
    have hout := (nativeStep_eq_some_iff.mp hstep).1
    obtain ⟨o, rfl⟩ := outOf_of_width_64 hout hwidth
    refine ⟨o, S', hout, ?_, ?_⟩
    · have hrule : ruleOf .nextU32 x = .next (x.advance S' [highHalf o]) :=
        nextU32Rule_eq_next_iff.mpr ⟨_, S', hstep, by rw [narrow, if_neg hsm, high32_eq_highHalf]⟩
      exact exec_of_rule hx (failedCheck_scalar (.inl rfl) hscalar hL) hrule
    · have hsteps : fillSteps x.build.variant (4#24).toNat = 1 := by rw [fillSteps, hwidth]; rfl
      have hrule : ruleOf (.fill 4#24) x = .next (x.advance S' [lowHalf o]) :=
        fillRule_eq_next_iff.mpr ⟨[.w64 o], S', by rw [hsteps]; exact extract_one_eq_some_iff.mpr ⟨_, hstep, rfl⟩,
          .inr ⟨by decide, by rw [← low32_eq_lowHalf, ← packBeats_fillBytes_four]; rfl⟩⟩
      exact exec_of_rule hx (failedCheck_scalar (.inr (.inr ⟨_, rfl⟩)) hscalar hL) hrule

end Sys2Proof.Machine
end
section
/-! A legal command on a port: the decoder reads it back from its words, and the step runs it (30_encoding.md R70-R76;
20_memory.md R57). -/

namespace Sys2Proof

theorem decode_commandWord {v : Variant} {o : Opcode} {len : BitVec 24} {beats : List Word} (rest : List Word)
    (hb : beats.length = inBeats v o) (hl : o ≠ .FILL → len = 0) :
    decode v (commandWord o.code len :: (beats ++ rest)) = .cmd (operands o len beats) rest := by
  have hcw : decodeCommand (commandWord o.code len) beats = .ok (operands o len beats) := by
    rw [decodeCommand, opcField_commandWord, opcodeOf_code, lenField_commandWord]
    exact if_neg fun ⟨ho, h0⟩ => h0 (hl ho)
  have hnot : ¬ (beats ++ rest).length < beats.length := by simp
  rw [decode, frameBeats_commandWord, ← hb, if_neg hnot, List.take_left, List.drop_left, hcw]

/-- A well-formed command is decoded from its words, whatever follows them (30_encoding.md R70-R76). -/
theorem decode_encode {v : Variant} {i : Instr} (rest : List Word) (h : i.wellFormed v = true) :
    decode v (encode i ++ rest) = .cmd i rest := by
  cases i with
  | seed beats => exact decode_commandWord (o := .SEED) rest (beq_iff_eq.mp h) fun _ => rfl
  | seedU64 x =>
    have := decode_commandWord (v := v) (o := .SEED_U64) (beats := [low32 x, high32 x]) rest rfl fun _ => rfl
    rwa [show operands .SEED_U64 0 [low32 x, high32 x] = .seedU64 x from congrArg _ (concat_halves x)] at this
  | nextU32 => exact decode_commandWord (o := .NEXT_U32) (beats := []) rest rfl fun _ => rfl
  | nextU64 => exact decode_commandWord (o := .NEXT_U64) (beats := []) rest rfl fun _ => rfl
  | fill len => exact decode_commandWord (o := .FILL) (beats := []) rest rfl fun h => absurd rfl h
  | jump => exact decode_commandWord (o := .JUMP) (beats := []) rest rfl fun _ => rfl
  | stateRead => exact decode_commandWord (o := .STATE_READ) (beats := []) rest rfl fun _ => rfl
  | readStatus => exact decode_commandWord (o := .READ_STATUS) (beats := []) rest rfl fun _ => rfl
  | readCap => exact decode_commandWord (o := .READ_CAP) (beats := []) rest rfl fun _ => rfl

end Sys2Proof

namespace Sys2Proof.Machine

theorem transact_of_cmd {s : State} {e : Nat} {x : Instance} {i : Instr} {rest : List Word}
    (hx : s.engines[e]? = some x) (hd : decode x.build.variant x.rx = .cmd i rest) :
    transact s e = exec i (s.serve e x rest) := by
  simp [transact, hx, hd]

/-- The first ready index, without an offset. -/
theorem firstReady_of_ready {l : List Instance} {e : Nat} {x : Instance} (hx : l[e]? = some x) (hr : x.ready = true)
    (hmin : ∀ (j : Nat) (y : Instance), j < e → l[j]? = some y → y.ready = false) : firstReady 0 l = some e :=
  firstReady_eq_some_iff.mpr ⟨e, x, (Nat.zero_add e).symm, hx, hr, hmin⟩

/-- Settles O10: the decoder reads the command back from the port, so the instance is ready and is the one served. -/
theorem stepRunsTheDecodedCommand : Obligations.StepRunsTheDecodedCommand := by
  unfold Obligations.StepRunsTheDecodedCommand
  intro s e x i rest hreset hx htx hwf hrx hmin
  have hd : decode x.build.variant x.rx = .cmd i rest := hrx ▸ decode_encode rest hwf
  have hready : x.ready = true := ready_iff.mpr ⟨htx, hd ▸ nofun⟩
  rw [step_of_ready hreset (firstReady_of_ready hx hready hmin), transact_of_cmd hx hd]
  rfl

end Sys2Proof.Machine
end

section
/-! Every well-formed command on a legal instance completes (60_exceptions.md R240, R245), and commands to different instances
commute (20_memory.md R60). -/

namespace Sys2Proof.Machine

open Sys2Proof.Claims

/-! ### Every command completes -/

theorem decodeSeed_of_wellFormed {v : Variant} {beats : List Word} (h : (Instr.seed beats).wellFormed v = true) :
    decodeSeed v beats = some (seedState v (beatBytes beats)) :=
  if_pos (beq_iff_eq.mp h)

/-- On an instance whose words are legal where the command reads them, a rule whose checks are passed does not stop. -/
theorem ruleOf_total {i : Instr} {x : Instance} (hwf : i.wellFormed x.build.variant = true)
    (hc : failedCheck i.opcode x = none) (hS : needsASeed i → x.S.fits x.build.variant = true) :
    ∃ y, ruleOf i x = .next y := by
  cases i with
  | seed beats =>
    have hT := decodeSeed_of_wellFormed hwf
    cases hz : zeroSeed x.build.variant (seedState x.build.variant (beatBytes beats)) with
    | true => exact ⟨_, seedRule_eq_next_iff.mpr ⟨_, hT, .inl ⟨hz, rfl⟩⟩⟩
    | false => exact ⟨_, seedRule_eq_next_iff.mpr ⟨_, hT, .inr ⟨hz, rfl⟩⟩⟩
  | seedU64 v => exact ⟨_, rfl⟩
  | nextU32 =>
    obtain ⟨⟨o, S'⟩, h⟩ := Option.isSome_iff_exists.mp ((nativeStep_isSome _ _).trans (hS (.inl rfl)))
    exact ⟨_, nextU32Rule_eq_next_iff.mpr ⟨o, S', h, rfl⟩⟩
  | nextU64 =>
    obtain ⟨os, S', h, -⟩ := extract_total (steps64 x.build.variant) (hS (by simp [needsASeed]))
    obtain ⟨r, hr, -⟩ := widen_of_extract h
    exact ⟨_, nextU64Rule_eq_next_iff.mpr ⟨os, S', r, h, hr, rfl⟩⟩
  | fill len =>
    obtain ⟨os, S', h, -⟩ := extract_total (fillSteps x.build.variant len.toNat) (hS (by simp [needsASeed]))
    by_cases hlen : len = 0#24
    · exact ⟨_, fillRule_eq_next_iff.mpr ⟨os, S', h, .inl ⟨hlen, rfl⟩⟩⟩
    · exact ⟨_, fillRule_eq_next_iff.mpr ⟨os, S', h, .inr ⟨hlen, rfl⟩⟩⟩
  | jump =>
    have hjump : x.build.variant.hasJump = true := (failedCheck_eq_none_iff.mp hc).1
    have hsome : (jumpOf x.build.variant x.S).isSome = true := by
      rw [jumpOf_isSome, hjump, hS (by simp [needsASeed]), Bool.and_self]
    obtain ⟨S', h⟩ := Option.isSome_iff_exists.mp hsome
    exact ⟨_, jumpRule_eq_next_iff.mpr ⟨S', h, rfl⟩⟩
  | stateRead =>
    obtain ⟨bytes, h⟩ := Option.isSome_iff_exists.mp ((stateBytes_isSome _ _).trans (hS (by simp [needsASeed])))
    exact ⟨_, stateReadRule_eq_next_iff.mpr ⟨bytes, h, rfl⟩⟩
  | readStatus => exact ⟨_, rfl⟩
  | readCap => exact ⟨_, rfl⟩

/-- A well-formed command on a legal instance replaces that instance and stops nowhere. -/
theorem exec_total {i : Instr} {s : State} {x : Instance} (hx : s.current = some x) (hinv : x.Inv)
    (hwf : i.wellFormed x.build.variant = true) : ∃ y, exec i s = .next (s.setCurrent y) := by
  cases hc : failedCheck i.opcode x with
  | some e => exact ⟨_, exec_of_failed hx hc⟩
  | none =>
    have hS (hi : needsASeed i) : x.S.fits x.build.variant = true :=
      (hinv.legal ((failedCheck_eq_none_iff.mp hc).2 (needsASeed_iff.mp hi))).fits
    obtain ⟨y, hy⟩ := ruleOf_total hwf hc hS
    exact ⟨y, exec_of_rule hx hc hy⟩

/-- Settles O17: by `exec_total` the command goes on, and by `exec_answer` it has sent one response. -/
theorem everyCommandCompletes : Obligations.EveryCommandCompletes := by
  unfold Obligations.EveryCommandCompletes
  intro i s x hx hinv hwf
  obtain ⟨y, hy⟩ := exec_total hx hinv hwf
  obtain ⟨r, outs, ha⟩ := exec_answer hy hx (current_setCurrent s y hx)
  exact ⟨y, r, outs, hy, ha.tx⟩

/-! ### Commands to different instances -/

/-- A command to instance `e` reads that instance alone and replaces it alone (00_scope.md R12). -/
theorem exec_at_iff {i : Instr} {e : Nat} {s t : State} :
    exec i { s with cur := e } = .next t ↔
      ∃ x y, s.engines[e]? = some x ∧ command i.opcode (ruleOf i) x = .next y ∧
        t = { s with cur := e, engines := s.engines.set e y } := by
  rw [exec_eq, onCurrent_eq_next_iff]
  rfl

/-- Settles O56: by `exec_at_iff` each command finds its own instance as the other one left it. -/
theorem instancesCommute : Obligations.InstancesCommute := by
  unfold Obligations.InstancesCommute
  intro i j e f s s1 s2 hne h1 h2
  obtain ⟨x, x', hx, hi, rfl⟩ := exec_at_iff.mp h1
  obtain ⟨y, y', hy, hj, rfl⟩ := exec_at_iff.mp h2
  have hy1 : (s.engines.set e x')[f]? = some y := (List.getElem?_set_ne hne).trans hy
  have hx2 : (s.engines.set f y')[e]? = some x := (List.getElem?_set_ne hne.symm).trans hx
  exact ⟨_, _, exec_at_iff.mpr ⟨y, y', hy1, hj, rfl⟩, exec_at_iff.mpr ⟨x, x', hx2, hi, rfl⟩, List.set_comm x' y' hne⟩

end Sys2Proof.Machine
end

section
/-! The encoding of commands (30_encoding.md R70-R76, R82): what the decoder accepts, as command word and in-beats, so that
it inverts the encoder both ways and follows the opcode table. -/

namespace Sys2Proof

/-- Settles O6: by `decode_encode`, which reads off each command its command word and in-beats. -/
theorem decodeOfEncode : Obligations.DecodeOfEncode :=
  fun _ _ rest h => decode_encode rest h

/-! ### What the decoder accepts -/

/-- A command word that is read as a command is the one of an assigned operation code, its LEN field 0 but for FILL (R72,
R73). -/
theorem decodeCommand_eq_ok_iff {cw : Word} {beats : List Word} {i : Instr} :
    decodeCommand cw beats = .ok i ↔
      ∃ o len, cw = commandWord o.code len ∧ (o ≠ .FILL → len = 0) ∧ i = operands o len beats := by
  constructor
  · intro h
    rw [decodeCommand] at h
    split at h
    · cases h
    · next o ho =>
      split_ifs at h with hbits
      cases h
      refine ⟨o, lenField cw, ?_, fun hfill => not_not.mp fun hlen => hbits ⟨hfill, hlen⟩, rfl⟩
      rw [← opcodeOf_eq_some_iff.mp ho, commandWord_fields]
  · rintro ⟨o, len, rfl, hlen, rfl⟩
    rw [decodeCommand, opcField_commandWord, opcodeOf_code, lenField_commandWord]
    exact if_neg fun ⟨hfill, h0⟩ => h0 (hlen hfill)

/-- The decoder takes a legal command word and the in-beats of its operation code off the port, and nothing else (R70,
R75). -/
theorem words_of_decode {v : Variant} {ws rest : List Word} {i : Instr} (h : decode v ws = .cmd i rest) :
    ∃ o len beats, ws = commandWord o.code len :: (beats ++ rest) ∧ beats.length = inBeats v o ∧
      (o ≠ .FILL → len = 0) ∧ i = operands o len beats := by
  cases ws with
  | nil => cases h
  | cons cw ws =>
    rw [decode] at h
    split_ifs at h with hshort
    split at h
    · next hcmd =>
      cases h
      obtain ⟨o, len, rfl, hlen, rfl⟩ := decodeCommand_eq_ok_iff.mp hcmd
      rw [frameBeats_commandWord] at hshort ⊢
      exact ⟨o, len, ws.take (inBeats v o), by rw [List.take_append_drop],
        List.length_take_of_le (Nat.le_of_not_lt hshort), hlen, rfl⟩
    · cases h

/-- A legal command word with the in-beats of its operation code is the encoding of the well-formed command they are read
as (R76). -/
theorem encode_operands {v : Variant} {o : Opcode} {len : BitVec 24} {beats : List Word}
    (hb : beats.length = inBeats v o) (hl : o ≠ .FILL → len = 0) :
    (operands o len beats).wellFormed v = true ∧ encode (operands o len beats) = commandWord o.code len :: beats := by
  have no_beats (h0 : inBeats v o = 0) : beats = [] := List.length_eq_zero_iff.mp (hb.trans h0)
  cases o with
  | SEED =>
    obtain rfl := hl nofun
    exact ⟨beq_iff_eq.mpr hb, rfl⟩
  | SEED_U64 =>
    obtain rfl := hl nofun
    obtain ⟨lo, hi, rfl⟩ := List.length_eq_two.mp hb
    exact ⟨rfl, by simp [operands, encode, Opcode.code]⟩
  | FILL =>
    obtain rfl := no_beats rfl
    exact ⟨rfl, rfl⟩
  | NEXT_U32 | NEXT_U64 | JUMP | STATE_READ | READ_STATUS | READ_CAP =>
    obtain rfl := hl nofun
    obtain rfl := no_beats rfl
    exact ⟨rfl, rfl⟩

/-- Settles O7: by `words_of_decode` the words are those of an operation code, and `encode_operands` reads them as the
encoding of the command. -/
theorem encodeOfDecode : Obligations.EncodeOfDecode := by
  unfold Obligations.EncodeOfDecode
  intro v ws rest i h
  obtain ⟨o, len, beats, rfl, hb, hl, rfl⟩ := words_of_decode h
  obtain ⟨hwf, henc⟩ := encode_operands hb hl
  exact ⟨hwf, by rw [henc, List.cons_append]⟩

/-! ### The opcode table -/

/-- The mask of an operation code's row: CW[7:0] for FILL, the whole command word for every other (R72). -/
def rowMask (o : Opcode) : Word := if o = .FILL then 0x000000FF else 0xFFFFFFFF

theorem mem_opcodeRows_iff {o : Opcode} {pattern mask : Word} :
    (o, pattern, mask) ∈ opcodeRows ↔ pattern = commandWord o.code 0 ∧ mask = rowMask o := by
  cases o <;> simp [opcodeRows, rowMask, commandWord, place, Opcode.code]

/-- The mask 0x000000FF keeps OPC and clears LEN. -/
theorem commandWord_and_opcMask (opc : BitVec 8) (len : BitVec 24) :
    commandWord opc len &&& 0x000000FF = commandWord opc 0 := by
  have hmask : ∀ i < 32, (0x000000FF : Word).getLsbD i = decide (i < 8) := by decide
  refine BitVec.eq_of_getLsbD_eq fun i hi => ?_
  rw [BitVec.getLsbD_and, hmask i hi]
  by_cases h : i < 8
  · simp [commandWord, getLsbD_place, h, hi, show ¬ 8 ≤ i by omega, -BitVec.getLsbD_eq_getElem]
  · have hopc : opc.getLsbD i = false := BitVec.getLsbD_of_ge opc i (Nat.le_of_not_lt h)
    simp [commandWord, getLsbD_place, h, hopc, -BitVec.getLsbD_eq_getElem]

/-- A word matches an operation code's row exactly when it is a command word of that code, its LEN field 0 but for FILL. -/
theorem and_rowMask_eq_iff {cw : Word} {o : Opcode} :
    cw &&& rowMask o = commandWord o.code 0 ↔ ∃ len, cw = commandWord o.code len ∧ (o ≠ .FILL → len = 0) := by
  by_cases ho : o = .FILL
  · rw [rowMask, if_pos ho]
    constructor
    · intro h
      rw [← commandWord_fields cw, commandWord_and_opcMask] at h
      have hopc : opcField cw = o.code := by simpa using congrArg opcField h
      exact ⟨lenField cw, by rw [← hopc, commandWord_fields], fun hne => absurd ho hne⟩
    · rintro ⟨len, rfl, -⟩
      exact commandWord_and_opcMask o.code len
  · have hall : cw &&& rowMask o = cw := by
      rw [rowMask, if_neg ho]
      exact BitVec.and_allOnes
    simp [hall, ho]

@[simp] theorem operands_opcode (o : Opcode) (len : BitVec 24) (beats : List Word) :
    (operands o len beats).opcode = o := by
  cases o <;> rfl

/-- Settles O9: both sides say that the word is a command word of the operation code whose LEN field is 0 but for FILL. -/
theorem decoderFollowsOpcodeTable : Obligations.DecoderFollowsOpcodeTable := by
  unfold Obligations.DecoderFollowsOpcodeTable
  intro cw beats o
  calc (∃ i, decodeCommand cw beats = .ok i ∧ i.opcode = o)
    _ ↔ ∃ len, cw = commandWord o.code len ∧ (o ≠ .FILL → len = 0) := by
      simp only [decodeCommand_eq_ok_iff]
      constructor
      · rintro ⟨_, ⟨o', len, hcw, hlen, rfl⟩, ho⟩
        obtain rfl := (operands_opcode o' len beats).symm.trans ho
        exact ⟨len, hcw, hlen⟩
      · rintro ⟨len, hcw, hlen⟩
        exact ⟨_, ⟨o, len, hcw, hlen, rfl⟩, operands_opcode o len beats⟩
    _ ↔ ∃ pattern mask, (o, pattern, mask) ∈ opcodeRows ∧ cw &&& mask = pattern := by
      simp only [← and_rowMask_eq_iff, mem_opcodeRows_iff]
      constructor
      · exact fun h => ⟨_, _, ⟨rfl, rfl⟩, h⟩
      · rintro ⟨_, _, ⟨rfl, rfl⟩, h⟩
        exact h

/-! ### The reference command words -/

/-- Settles O8: each legal row is the encoding of its command, so `decode_encode` reads it back; the two illegal words are
evaluated. -/
theorem referenceCommandWords : Obligations.ReferenceCommandWords :=
  ⟨decode_encode (i := .seed [1, 2, 3, 4]) [] rfl,
   decode_encode (i := .seedU64 1477776061723855037) [] rfl,
   decode_encode (i := .nextU32) [] rfl,
   decode_encode (i := .nextU64) [] rfl,
   decode_encode (i := .fill 0) [] rfl,
   decode_encode (i := .fill 7) [] rfl,
   decode_encode (i := .fill 16777215) [] rfl,
   decode_encode (i := .jump) [] rfl,
   decode_encode (i := .stateRead) [] rfl,
   decode_encode (i := .readStatus) [] rfl,
   decode_encode (i := .readCap) [] rfl,
   by decide, by decide⟩

end Sys2Proof
end

section
/-! What the host's sends and takes do while no instance is ready (60_exceptions.md R254, R256), and the shape of every
response: one code, then P_out out-beats or none (30_encoding.md R77, R78; 60_exceptions.md R246). -/

namespace Sys2Proof.Machine

open Sys2Proof.Claims

/-! ### The ports while no instance is ready -/

theorem onPort_of_some {s : State} {e : Nat} {x : Instance} {f : Instance → Instance} (hx : s.engines[e]? = some x) :
    onPort s e f = .next { s with engines := s.engines.set e (f x) } := by
  simp [onPort, hx]

theorem onPort_of_none {s : State} {e : Nat} {f : Instance → Instance} (hx : s.engines[e]? = none) :
    onPort s e f = .fault .noSuchInstance := by
  simp [onPort, hx]

/-- Settles O14: with no instance ready a step is the oldest input or nothing, and a send or a take is `onPort`. -/
theorem portsWithoutAReadyInstance : Obligations.PortsWithoutAReadyInstance := by
  unfold Obligations.PortsWithoutAReadyInstance
  intro s hready
  have hnone : firstReady 0 s.engines = none := firstReady_eq_none_iff.mpr hready
  refine ⟨fun hi => step_of_idle hi hnone, fun e w rest hi => ⟨fun x hx => ?_, fun hx => ?_⟩,
    fun e rest hi => ⟨fun x hx => ?_, fun hx => ?_⟩⟩ <;>
    rw [step_of_input hi hnone, applyInput]
  · exact onPort_of_some hx
  · exact onPort_of_none hx
  · rw [List.drop_one]
    exact onPort_of_some hx
  · exact onPort_of_none hx

/-! ### The shape of a response -/

/-- From `x` to `y` the command `i` has sent one response word, with P_out out-beats after an OK and none after an error
(30_encoding.md R77, R78; 60_exceptions.md R246). -/
def Responds (i : Instr) (x y : Instance) : Prop :=
  ∃ (r : Resp) (outs : List Word), y.tx = x.tx ++ responseWord r :: outs ∧
    outs.length = if r = .OK then beatsOut x.build.variant i else 0

theorem responds_raise (i : Instr) (x : Instance) (e : Err) : Responds i x (x.raise e) :=
  ⟨.error e, [], raise_tx x e, rfl⟩

theorem responds_respond {i : Instr} {x : Instance} {outs : List Word} (h : outs.length = beatsOut x.build.variant i) :
    Responds i x (x.respond outs) :=
  ⟨.OK, outs, respond_tx x outs, h⟩

theorem responds_accept {i : Instr} {x : Instance} (T : StateReg) (h : beatsOut x.build.variant i = 0) :
    Responds i x (x.accept T) :=
  ⟨.OK, [], accept_tx x T, h.symm⟩

theorem responds_advance {i : Instr} {x : Instance} (T : StateReg) {outs : List Word}
    (h : outs.length = beatsOut x.build.variant i) : Responds i x (x.advance T outs) :=
  ⟨.OK, outs, advance_tx x T outs, h⟩

/-! ### The number of out-beats -/

/-- A native output has w/8 bytes (20_memory.md R53). -/
theorem outBytes_length {v : Variant} {S : StateReg} {o : OutWord} (h : outOf v S = some o) :
    (outBytes o).length = v.width / 8 := by
  rcases width_cases v with hv | hv
  · obtain ⟨a, rfl⟩ := outOf_of_width_64 h hv
    rw [hv, outBytes, leBytes_length]
  · obtain ⟨a, rfl⟩ := outOf_of_width_32 h hv
    rw [hv, outBytes, leBytes_length]

theorem extract_bytes_length {v : Variant} {k : Nat} {S S' : StateReg} {os : List OutWord}
    (h : extract v k S = some (os, S')) : (os.flatMap outBytes).length = k * (v.width / 8) := by
  induction k generalizing S os with
  | zero => cases h; simp
  | succ k ih =>
    obtain ⟨o, S1, os', h1, h2, rfl⟩ := extract_succ_eq_some_iff.mp h
    rw [List.flatMap_cons, List.length_append, outBytes_length (nativeStep_eq_some_iff.mp h1).1, ih h2, Nat.succ_mul,
      Nat.add_comm]

/-- FILL's native steps give at least LEN bytes (44_engine_commands.md R185). -/
theorem le_fillSteps_bytes (v : Variant) (len : Nat) : len ≤ fillSteps v len * (v.width / 8) := by
  rcases width_cases v with hv | hv <;> simp only [fillSteps, hv] <;> omega

theorem fillBytes_length {v : Variant} {len : Nat} {S S' : StateReg} {os : List OutWord}
    (h : extract v (fillSteps v len) S = some (os, S')) : (fillBytes os len).length = len := by
  rw [fillBytes, List.length_take_of_le]
  rw [extract_bytes_length h]
  exact le_fillSteps_bytes v len

/-- STATE_READ's bytes fill the beats that R78 gives it. -/
theorem packBeats_stateBytes_length {v : Variant} {S : StateReg} {bytes : List Byte} (h : stateBytes v S = some bytes) :
    (packBeats bytes).length = beatsOut v .stateRead := by
  rw [packBeats_length]
  unfold stateBytes at h
  split at h <;> cases h <;> simp [beatsOut]

/-- Every rule that goes on responds with the out-beats of its command. -/
theorem ruleOf_responds {i : Instr} {x y : Instance} (h : ruleOf i x = .next y) : Responds i x y := by
  cases i with
  | seed beats =>
    obtain ⟨T, -, ⟨-, rfl⟩ | ⟨-, rfl⟩⟩ := seedRule_eq_next_iff.mp h
    · exact responds_raise _ x .ZERO_SEED
    · exact responds_accept T rfl
  | seedU64 v => cases h; exact responds_accept _ rfl
  | nextU32 =>
    obtain ⟨o, S', -, rfl⟩ := nextU32Rule_eq_next_iff.mp h
    exact responds_advance S' rfl
  | nextU64 =>
    obtain ⟨os, S', r, -, -, rfl⟩ := nextU64Rule_eq_next_iff.mp h
    exact responds_advance S' rfl
  | fill len =>
    obtain ⟨os, S', hos, ⟨rfl, rfl⟩ | ⟨-, rfl⟩⟩ := fillRule_eq_next_iff.mp h
    · exact responds_respond rfl
    · exact responds_advance S' (by rw [packBeats_length, fillBytes_length hos, beatsOut])
  | jump =>
    obtain ⟨S', -, rfl⟩ := jumpRule_eq_next_iff.mp h
    exact responds_advance S' rfl
  | stateRead =>
    obtain ⟨bytes, hbytes, rfl⟩ := stateReadRule_eq_next_iff.mp h
    exact responds_respond (packBeats_stateBytes_length hbytes)
  | readStatus => cases h; exact responds_respond rfl
  | readCap => cases h; exact responds_respond rfl

/-- A command that goes on has made its instance what the common checks and its own rule make of it. -/
theorem command_of_exec {i : Instr} {s t : State} {x y : Instance} (h : exec i s = .next t) (hx : s.current = some x)
    (hy : t.current = some y) : command i.opcode (ruleOf i) x = .next y := by
  rw [exec_eq] at h
  obtain ⟨x', y', hx', hc, rfl⟩ := onCurrent_eq_next_iff.mp h
  obtain rfl : x = x' := Option.some.inj (hx.symm.trans hx')
  obtain rfl : y' = y := Option.some.inj ((current_setCurrent s y' hx).symm.trans hy)
  exact hc

/-- Settles O54: a command ends with a failed check's error or by its own rule, and both respond in the shape of R78. -/
theorem responseShape : Obligations.ResponseShape := by
  unfold Obligations.ResponseShape
  refine ⟨fun r => by rcases r with _ | _ | _ | _ | _ <;> rfl, fun i s t x y h hx hy => ?_⟩
  obtain ⟨e, -, rfl⟩ | ⟨-, hr⟩ := command_eq_next_iff.mp (command_of_exec h hx hy)
  · exact responds_raise i x e
  · exact ruleOf_responds hr

end Sys2Proof.Machine
end

section
/-! SplitMix64 (41_splitmix64.md R100-R106; 44_engine_commands.md R170, R171): `mix` is put together from bijections,
the expansion of no operand is all-zero, and what SEED_U64 installs. -/

namespace Sys2Proof.Machine

open Sys2Proof.Claims

/-! ### The steps of mix are bijections (41_splitmix64.md R105) -/

/-- The step z ^ (z >> k) is linear over exclusive or. -/
theorem xor_shr_xor {w : Nat} (x y : BitVec w) (k : Nat) :
    (x ^^^ y) ^^^ shr (x ^^^ y) k = (x ^^^ shr x k) ^^^ (y ^^^ shr y k) := by
  simp only [shr, BitVec.ushiftRight_xor_distrib]
  ac_rfl

/-- A linear map that sends only 0 to 0 is one-to-one, and the words are finitely many. -/
theorem xor_shr_bijective {w k : Nat} (hk : 0 < k) : Function.Bijective fun z : BitVec w => z ^^^ shr z k := by
  refine Finite.injective_iff_bijective.mp fun x y h => ?_
  have hxy : (x ^^^ y) ^^^ shr (x ^^^ y) k = 0#w := by rw [xor_shr_xor, BitVec.xor_eq_zero_iff]; exact h
  exact BitVec.xor_eq_zero_iff.mp (xor_shr_eq_zero hk hxy)

/-- An odd number is prime to 2^64, so it has an inverse modulo 2^64. -/
theorem isUnit_of_odd {c : Word64} (hc : c.toNat % 2 = 1) : IsUnit c := by
  have hcop : c.toNat.Coprime (2 ^ 64) := (Nat.coprime_two_right.mpr (Nat.odd_iff.mpr hc)).pow_right 64
  obtain ⟨d, hd, hcd⟩ := Nat.exists_mul_mod_eq_one_of_coprime hcop (by decide)
  refine .of_mul_eq_one (BitVec.ofNat 64 d) (BitVec.eq_of_toNat_eq ?_)
  rw [BitVec.toNat_mul, BitVec.toNat_ofNat, Nat.mod_eq_of_lt hd]
  exact hcd

theorem mul_odd_bijective {c : Word64} (hc : c.toNat % 2 = 1) : Function.Bijective fun z : Word64 => z * c :=
  IsUnit.isUnit_iff_mulRight_bijective.mp (isUnit_of_odd hc)

theorem MIX1_odd : MIX1.toNat % 2 = 1 := by decide

theorem MIX2_odd : MIX2.toNat % 2 = 1 := by decide

theorem mix_eq_comp :
    mix = (fun z => z ^^^ shr z 31) ∘ (· * MIX2) ∘ (fun z => z ^^^ shr z 27) ∘ (· * MIX1) ∘ fun z => z ^^^ shr z 30 :=
  rfl

theorem mix_bijective : Function.Bijective mix := by
  rw [mix_eq_comp]
  exact (xor_shr_bijective (by decide)).comp <| (mul_odd_bijective MIX2_odd).comp <|
    (xor_shr_bijective (by decide)).comp <| (mul_odd_bijective MIX1_odd).comp <| xor_shr_bijective (by decide)

theorem mix_zero : mix 0 = 0 := by decide

theorem mix_eq_zero_iff {z : Word64} : mix z = 0 ↔ z = 0 :=
  mix_bijective.injective.eq_iff' mix_zero

/-- Settles O23: `mix` is the composition of three xor-shifts and two multiplications by odd constants. -/
theorem mixIsBijective : Obligations.MixIsBijective := by
  unfold Obligations.MixIsBijective
  exact ⟨mix_bijective, fun _ => mix_eq_zero_iff, fun _ hk => xor_shr_bijective hk, fun _ hc => mul_odd_bijective hc,
    MIX1_odd, MIX2_odd⟩

/-! ### The expansion (41_splitmix64.md R104, R106) -/

theorem add_gamma_ne_add_two_mul_gamma (v : Word64) : v + gamma ≠ v + 2 * gamma := by
  rw [Ne, BitVec.add_right_inj]
  decide

theorem expandXR128_eq (v : Word64) : expandXR128 v = ⟨mix (v + gamma), mix (v + gamma + gamma)⟩ := rfl

theorem expandX128_eq (v : Word64) :
    expandX128 v = ⟨low32 (mix (v + gamma)), low32 (mix (v + gamma + gamma)), low32 (mix (v + gamma + gamma + gamma)),
      low32 (mix (v + gamma + gamma + gamma + gamma))⟩ := rfl

/-- Settles O22: two distinct counters, of which `mix` sends at most one to 0. -/
theorem expansionIsNeverZero : Obligations.ExpansionIsNeverZero := by
  unfold Obligations.ExpansionIsNeverZero
  intro v
  have htwo : v + gamma + gamma = v + 2 * gamma := by rw [two_mul, add_assoc]
  have hexp : expandXR128 v = ⟨mix (v + gamma), mix (v + 2 * gamma)⟩ := by rw [expandXR128_eq, htwo]
  have hne : v + gamma ≠ v + 2 * gamma := add_gamma_ne_add_two_mul_gamma v
  exact ⟨hexp, hne, fun ⟨h1, h2⟩ => hne (mix_bijective.injective (h1.trans h2.symm)), expandXR128_ne_zero v⟩

/-! ### SEED_U64 (44_engine_commands.md R170, R171) -/

/-- The model's output function is the one the statements write out. -/
theorem mix_eq_splitMix (z : Word64) : mix z = splitMix z := rfl

/-- The scalar variants support SEED_U64, and it needs no seed (44_engine_commands.md R161, R162). -/
theorem exec_seedU64 {s : State} {x : Instance} (v : Word64) (hx : s.current = some x)
    (hv : x.build.variant.isVector = false) :
    exec (.seedU64 v) s = .next (s.setCurrent (x.accept (seedU64State x.build.variant v))) := by
  have hc : failedCheck .SEED_U64 x = none := failedCheck_eq_none_iff.mpr ⟨by simp [supported, hv], nofun⟩
  exact exec_of_rule hx hc rfl

theorem seedU64State_of_isX128 {variant : Variant} (h : isX128 variant) (v : Word64) :
    seedU64State variant v = .x128 (expandX128 v) := by
  rcases h with rfl | rfl <;> rfl

theorem seedU64State_of_isXR128 {variant : Variant} (h : isXR128 variant) (v : Word64) :
    seedU64State variant v = .xr128 (expandXR128 v) := by
  rcases h with rfl | rfl <;> rfl

theorem isVector_eq_false_iff {variant : Variant} :
    variant.isVector = false ↔ isX128 variant ∨ isXR128 variant ∨ variant = .SM64 := by
  cases variant <;> decide

/-- Settles O21: by `exec_seedU64`, what is installed is the state of the variant's own expansion. -/
theorem seedU64InstallsTheExpansion : Obligations.SeedU64InstallsTheExpansion := by
  unfold Obligations.SeedU64InstallsTheExpansion
  refine fun s x v hx => ⟨fun hv => ?_, fun hv => ?_, fun hv => ?_⟩
  · rw [exec_seedU64 v hx (isVector_eq_false_iff.mpr (.inl hv)), seedU64State_of_isX128 hv, expandX128_eq]
    simp only [low32_eq_lowHalf, mix_eq_splitMix]
    rfl
  · rw [exec_seedU64 v hx (isVector_eq_false_iff.mpr (.inr (.inl hv))), seedU64State_of_isXR128 hv, expandXR128_eq]
    simp only [mix_eq_splitMix]
    rfl
  · rw [exec_seedU64 v hx (isVector_eq_false_iff.mpr (.inr (.inr hv))), hv]
    rfl

end Sys2Proof.Machine
end

section
/-! The corner cases of the scramblers and the kernels (42_scramblers.md R120-R126; 43_kernels.md R140, R144, R149). -/

namespace Sys2Proof.Machine

open Sys2Proof.Claims

/-! ### The output of each variant (42_scramblers.md R121-R125) -/

@[simp] theorem outOf_X128SS (S : X128) : outOf .X128SS (.x128 S) = some (.w32 (starstar S.s0)) := rfl

@[simp] theorem outOf_X128P (S : X128) : outOf .X128P (.x128 S) = some (.w32 (S.s0 + S.s3)) := rfl

@[simp] theorem outOf_XR128SS (S : XR128) : outOf .XR128SS (.xr128 S) = some (.w64 (starstar S.s0)) := rfl

@[simp] theorem outOf_XR128P (S : XR128) : outOf .XR128P (.xr128 S) = some (.w64 (S.s0 + S.s1)) := rfl

@[simp] theorem outOf_X128SS_V (vs : BitVec 128) : outOf .X128SS_V (.vec vs) = some (.w32 (starstar (lane vs 0))) := rfl

/-! ### The all-zero state (42_scramblers.md R126) -/

/-- At every width: the product with 5 is 0, and so are its rotation and the product with 9. -/
@[simp] theorem starstar_zero (w : Nat) : starstar 0#w = 0#w := by simp [starstar]

@[simp] theorem lane_zero (i : Nat) : lane 0#128 i = 0#32 := by simp [lane]

theorem outOf_zero_of_isX128 {v : Variant} (hv : isX128 v) : outOf v (.x128 ⟨0, 0, 0, 0⟩) = some (.w32 0) := by
  rcases hv with rfl | rfl
  · simp [outOf_X128SS, starstar_zero]
  · simp [outOf_X128P]

theorem outOf_zero_of_isXR128 {v : Variant} (hv : isXR128 v) : outOf v (.xr128 ⟨0, 0⟩) = some (.w64 0) := by
  rcases hv with rfl | rfl
  · simp [outOf_XR128SS, starstar_zero]
  · simp [outOf_XR128P]

theorem outOf_zero_X128SS_V : outOf .X128SS_V (.vec 0) = some (.w32 0) := by
  simp [outOf_X128SS_V, lane_zero, starstar_zero]

/-! ### The wrap of Plus (42_scramblers.md R126) -/

/-- The sum wraps whatever the two words that Plus does not read. -/
theorem outOf_X128P_wraps (a b : Word) : outOf .X128P (.x128 ⟨0xFFFFFFFF, a, b, 1⟩) = some (.w32 0) := by
  have hwrap : (0xFFFFFFFF : Word) + 1 = 0 := by decide
  rw [outOf_X128P]
  exact congrArg (some <| OutWord.w32 ·) hwrap

theorem outOf_XR128P_wraps : outOf .XR128P (.xr128 ⟨0xFFFFFFFFFFFFFFFF, 1⟩) = some (.w64 0) := by
  have hwrap : (0xFFFFFFFFFFFFFFFF : Word64) + 1 = 0 := by decide
  rw [outOf_XR128P]
  exact congrArg (some <| OutWord.w64 ·) hwrap

/-- Settles O24: the general rows by the lemmas above, `outOf_isSome` for the totality, and the closed values of `starstar`
and of the two transitions by evaluation. -/
theorem functionCornerCases : Obligations.FunctionCornerCases := by
  unfold Obligations.FunctionCornerCases
  exact ⟨starstar_zero, by decide, by decide, by decide, by decide, by decide, by decide,
    fun _ => outOf_zero_of_isX128, fun _ => outOf_zero_of_isXR128, outOf_zero_X128SS_V,
    outOf_X128P_wraps, outOf_XR128P_wraps, fun v S hS => (outOf_isSome v S).trans hS,
    by decide, by decide, by decide, by decide, by decide, by decide, by decide, by decide⟩

end Sys2Proof.Machine
end

section
/-! The two transition kernels as linear bijections (43_kernels.md R141-R145). -/

namespace Sys2Proof.Machine

open Sys2Proof.Claims

/-! ### Words under exclusive or, shifts and rotations -/

theorem xor_left_comm {w : Nat} (a b c : BitVec w) : a ^^^ (b ^^^ c) = b ^^^ (a ^^^ c) := by ac_rfl

theorem xor_xor_cancel_left {w : Nat} (a b : BitVec w) : a ^^^ (a ^^^ b) = b := by
  rw [← BitVec.xor_assoc, BitVec.xor_self, BitVec.zero_xor]

theorem rotl_eq_rotateLeft {w k : Nat} (x : BitVec w) (hk : k < w) : rotl x k = x.rotateLeft k := by
  rw [rotl, shl, shr, BitVec.rotateLeft_def, Nat.mod_eq_of_lt hk]

theorem rotateLeft_rotateLeft_sub {w k : Nat} (x : BitVec w) (h0 : 0 < k) (hk : k < w) :
    (x.rotateLeft k).rotateLeft (w - k) = x := by
  rw [← rotl_eq_rotateLeft _ hk, ← rotl_eq_rotateLeft _ (by omega), rotl_rotl_sub x h0 hk]

/-- The shifts by 9, 18 and 27 cancel in pairs, and the shift by 36 leaves nothing of the word (43_kernels.md R143). -/
theorem unshift_xor_shiftLeft (c : Word) :
    let d := c ^^^ (c <<< 9)
    d ^^^ (d <<< 9) ^^^ (d <<< 18) ^^^ (d <<< 27) = c := by
  have h36 : c <<< 36 = 0#32 := BitVec.shiftLeft_eq_zero (by decide)
  simp only [BitVec.shiftLeft_xor_distrib, ← BitVec.shiftLeft_add, Nat.reduceAdd, h36, BitVec.xor_assoc,
    xor_xor_cancel_left, BitVec.xor_self, BitVec.xor_zero]

/-! ### The xoshiro128 transition (43_kernels.md R141-R143) -/

theorem stepX128_eq_nextX128 (S : X128) : stepX128 S = nextX128 S := by
  simp only [stepX128, nextX128, shl, rotl_eq_rotateLeft _ (show 11 < 32 by decide), X128.mk.injEq]
  exact ⟨by ac_rfl, by ac_rfl, by ac_rfl, by ac_rfl⟩

/-- Settles O25: each word of the in-place transition is the closed form's, up to the order of its exclusive ors. -/
theorem xoshiroStepInClosedForm : Obligations.XoshiroStepInClosedForm :=
  ⟨stepX128_eq_nextX128, by decide⟩

theorem stepX128_xor (S T : X128) : stepX128 (S.xor T) = (stepX128 S).xor (stepX128 T) := by
  have comm (a b c d : Word) : a ^^^ b ^^^ (c ^^^ d) = a ^^^ c ^^^ (b ^^^ d) := by ac_rfl
  simp only [stepX128, X128.xor, rotl_xor _ _ (show 11 < 32 by decide), shl_xor, comm]

theorem stepX128_zero : stepX128 ⟨0, 0, 0, 0⟩ = ⟨0, 0, 0, 0⟩ := by decide

/-- Settles O26: the transition is made of exclusive ors, one shift and one rotation, each of them linear. -/
theorem xoshiroStepIsLinear : Obligations.XoshiroStepIsLinear :=
  ⟨stepX128_xor, stepX128_zero⟩

/-- The inverse of the xoshiro128 transition (43_kernels.md R143). -/
def backX128 (T : X128) : X128 :=
  let a := T.s3.rotateLeft 21
  let s0 := T.s0 ^^^ a
  let d := T.s1 ^^^ T.s2
  let s1 := d ^^^ (d <<< 9) ^^^ (d <<< 18) ^^^ (d <<< 27)
  ⟨s0, s1, T.s1 ^^^ s0 ^^^ s1, a ^^^ s1⟩

theorem backX128_stepX128 : Function.LeftInverse backX128 stepX128 := by
  rintro ⟨a, b, c, d⟩
  have hrot : ((b ^^^ d).rotateLeft 11).rotateLeft 21 = b ^^^ d := rotateLeft_rotateLeft_sub _ (by decide) (by decide)
  have hd : a ^^^ b ^^^ c ^^^ (a ^^^ c ^^^ b <<< 9) = b ^^^ b <<< 9 := by
    simp only [BitVec.xor_assoc, xor_left_comm c a, xor_left_comm b a, xor_xor_cancel_left]
  rw [stepX128_eq_nextX128]
  simp only [backX128, nextX128, hrot, hd, unshift_xor_shiftLeft, X128.mk.injEq, true_and]
  simp only [BitVec.xor_comm, xor_left_comm, xor_xor_cancel_left, BitVec.xor_self, BitVec.xor_zero,
    and_self]

/-! ### The xoroshiro128 transition (43_kernels.md R144, R145) -/

theorem stepXR128_eq_nextXR128 (S : XR128) : stepXR128 S = nextXR128 S := by
  simp only [stepXR128, nextXR128, shl, rotl_eq_rotateLeft _ (show 24 < 64 by decide),
    rotl_eq_rotateLeft _ (show 37 < 64 by decide), BitVec.xor_comm S.s1]

/-- The inverse of the xoroshiro128 transition (43_kernels.md R145). -/
def backXR128 (T : XR128) : XR128 :=
  let x := T.s1.rotateLeft 27
  let s0 := (T.s0 ^^^ x ^^^ (x <<< 16)).rotateLeft 40
  ⟨s0, x ^^^ s0⟩

theorem backXR128_stepXR128 : Function.LeftInverse backXR128 stepXR128 := by
  rintro ⟨a, b⟩
  have hx : ((a ^^^ b).rotateLeft 37).rotateLeft 27 = a ^^^ b := rotateLeft_rotateLeft_sub _ (by decide) (by decide)
  have ha : (a.rotateLeft 24).rotateLeft 40 = a := rotateLeft_rotateLeft_sub _ (by decide) (by decide)
  have hs0 (y x z : Word64) : y ^^^ x ^^^ z ^^^ x ^^^ z = y := by
    simp only [BitVec.xor_assoc, xor_left_comm z x, BitVec.xor_self, BitVec.xor_zero]
  rw [stepXR128_eq_nextXR128]
  simp only [backXR128, nextXR128, hx, hs0, ha, XR128.mk.injEq, true_and]
  rw [BitVec.xor_comm a b, BitVec.xor_assoc, BitVec.xor_self, BitVec.xor_zero]

/-! ### The number of states -/

/-- An xoshiro128 state as its four words. -/
def x128Words : X128 ≃ Word × Word × Word × Word where
  toFun S := (S.s0, S.s1, S.s2, S.s3)
  invFun := fun (a, b, c, d) => ⟨a, b, c, d⟩
  left_inv _ := rfl
  right_inv _ := rfl

/-- An xoroshiro128 state as its two words. -/
def xr128Words : XR128 ≃ Word64 × Word64 where
  toFun S := (S.s0, S.s1)
  invFun := fun (a, b) => ⟨a, b⟩
  left_inv _ := rfl
  right_inv _ := rfl

theorem card_word (w : Nat) : Nat.card (BitVec w) = 2 ^ w := by
  rw [Nat.card_congr (BitVec.equivFin (m := w)).toEquiv, Nat.card_fin]

theorem card_X128 : Nat.card X128 = 2 ^ 128 := by
  rw [Nat.card_congr x128Words]
  simp only [Nat.card_prod, card_word, Nat.reducePow, Nat.reduceMul]

theorem card_XR128 : Nat.card XR128 = 2 ^ 128 := by
  rw [Nat.card_congr xr128Words]
  simp only [Nat.card_prod, card_word, Nat.reducePow, Nat.reduceMul]

theorem finite_X128 : Finite X128 := Finite.of_equiv _ x128Words.symm

theorem finite_XR128 : Finite XR128 := Finite.of_equiv _ xr128Words.symm

/-! ### Both transitions are bijections (43_kernels.md R143) -/

theorem stepX128_bijective : Function.Bijective stepX128 :=
  have := finite_X128
  Finite.injective_iff_bijective.mp backX128_stepX128.injective

theorem stepXR128_bijective : Function.Bijective stepXR128 :=
  have := finite_XR128
  Finite.injective_iff_bijective.mp backXR128_stepXR128.injective

theorem stepX128_backX128 : Function.RightInverse backX128 stepX128 :=
  backX128_stepX128.rightInverse_of_surjective stepX128_bijective.surjective

theorem stepXR128_backXR128 : Function.RightInverse backXR128 stepXR128 :=
  backXR128_stepXR128.rightInverse_of_surjective stepXR128_bijective.surjective

/-- Settles O27: the inverse is computed from one side; on finitely many states a one-to-one transition is a bijection, so the
same function is its inverse from the other side, and only the all-zero state steps to the all-zero state. -/
theorem xoshiroStepInverts : Obligations.XoshiroStepInverts :=
  ⟨backX128_stepX128, stepX128_backX128, stepX128_bijective, stepXR128_bijective,
    fun _ hS h => hS (stepX128_bijective.injective (h.trans stepX128_zero.symm)),
    fun _ hS h => hS (stepXR128_eq_zero h)⟩

/-- Settles O28: linearity and the fixed point are those of the kernel's own laws; the inverse is as for O27. -/
theorem xoroshiroStepIsLinearAndInverts : Obligations.XoroshiroStepIsLinearAndInverts :=
  ⟨stepXR128_xor, stepXR128_zero, backXR128_stepXR128, stepXR128_backXR128⟩

end Sys2Proof.Machine
end

section
/-! Polynomials over GF(2) in a linear transition (45_jump.md R202): where p is x^k modulo a polynomial that annihilates the
state e, p(M)·e is the state k transitions after e. -/

namespace Sys2Proof.Machine

/-- A transition over GF(2): exclusive or makes the states a group in which every element is its own inverse, and the
transition respects it. -/
structure LinearKernel (α : Type) where
  zero : α
  xor : α → α → α
  step : α → α
  xor_assoc (a b c : α) : xor (xor a b) c = xor a (xor b c)
  xor_comm (a b : α) : xor a b = xor b a
  xor_self (a : α) : xor a a = zero
  zero_xor (a : α) : xor zero a = a
  step_xor (a b : α) : step (xor a b) = xor (step a) (step b)

namespace LinearKernel

variable {α : Type} (K : LinearKernel α)

theorem xor_zero (a : α) : K.xor a K.zero = a := by rw [K.xor_comm, K.zero_xor]

theorem xor_xor_xor_comm (a b c d : α) : K.xor (K.xor a b) (K.xor c d) = K.xor (K.xor a c) (K.xor b d) := by
  rw [K.xor_assoc, K.xor_assoc, ← K.xor_assoc b, K.xor_comm b c, K.xor_assoc c]

theorem step_zero : K.step K.zero = K.zero := by
  have h := K.step_xor K.zero K.zero
  rwa [K.xor_self, K.xor_self] at h

/-! ### Scaling by a coefficient of GF(2) -/

/-- c·S for a coefficient c of GF(2). -/
def scale (c : Bool) (S : α) : α := bif c then S else K.zero

theorem scale_false (S : α) : K.scale false S = K.zero := rfl

theorem scale_true (S : α) : K.scale true S = S := rfl

theorem scale_zero (c : Bool) : K.scale c K.zero = K.zero := by cases c <;> rfl

theorem scale_bne (c d : Bool) (S : α) : K.scale (c ^^ d) S = K.xor (K.scale c S) (K.scale d S) := by
  cases c <;> cases d
  · exact (K.zero_xor K.zero).symm
  · exact (K.zero_xor S).symm
  · exact (K.xor_zero S).symm
  · exact (K.xor_self S).symm

theorem step_scale (c : Bool) (S : α) : K.step (K.scale c S) = K.scale c (K.step S) := by
  cases c
  · exact K.step_zero
  · rfl

/-! ### The value of a polynomial -/

/-- p(M)·S by Horner's scheme, for the transition M and the polynomial whose coefficients are the n low bits of p. -/
def eval (n p : Nat) (S : α) : α :=
  match n with
  | 0 => K.zero
  | n + 1 => K.xor (K.scale (p.testBit 0) S) (K.step (eval n (p / 2) S))

theorem eval_succ (n p : Nat) (S : α) :
    K.eval (n + 1) p S = K.xor (K.scale (p.testBit 0) S) (K.step (K.eval n (p / 2) S)) := rfl

theorem eval_step (n p : Nat) (S : α) : K.eval n p (K.step S) = K.step (K.eval n p S) := by
  induction n generalizing p with
  | zero => exact K.step_zero.symm
  | succ n ih => rw [eval_succ, eval_succ, ih, K.step_xor, K.step_scale]

theorem eval_iterate_step (n p k : Nat) (S : α) : K.eval n p (K.step^[k] S) = K.step^[k] (K.eval n p S) :=
  Function.Commute.iterate_right (f := K.eval n p) (K.eval_step n p) k S

theorem eval_xor (n p q : Nat) (S : α) : K.eval n (p ^^^ q) S = K.xor (K.eval n p S) (K.eval n q S) := by
  induction n generalizing p q with
  | zero => exact (K.zero_xor K.zero).symm
  | succ n ih =>
    rw [eval_succ, Nat.testBit_xor, Nat.xor_div_two, ih, K.scale_bne, K.step_xor, K.xor_xor_xor_comm, ← eval_succ,
      ← eval_succ]

theorem eval_zero (n : Nat) (S : α) : K.eval n 0 S = K.zero := by
  have h := K.eval_xor n 0 0 S
  rwa [K.xor_self] at h

theorem eval_toNat_mul (n : Nat) (c : Bool) (p : Nat) (S : α) :
    K.eval n (c.toNat * p) S = K.scale c (K.eval n p S) := by
  cases c
  · rw [Bool.toNat_false, Nat.zero_mul, K.eval_zero, K.scale_false]
  · rw [Bool.toNat_true, Nat.one_mul, K.scale_true]

theorem eval_one (n : Nat) (S : α) : K.eval (n + 1) 1 S = S := by
  rw [eval_succ, show 1 / 2 = 0 from rfl, K.eval_zero, K.step_zero, K.xor_zero]
  rfl

theorem eval_shiftLeft_one (n p : Nat) (S : α) : K.eval (n + 1) (p <<< 1) S = K.step (K.eval n p S) := by
  have hdiv : p <<< 1 / 2 = p := by rw [Nat.shiftLeft_eq]; omega
  have hbit : (p <<< 1).testBit 0 = false := by simp
  rw [eval_succ, hbit, hdiv, K.scale_false, K.zero_xor]

theorem eval_succ_of_testBit_eq_false {n p : Nat} (h : p.testBit n = false) (S : α) : K.eval (n + 1) p S = K.eval n p S := by
  induction n generalizing p with
  | zero => rw [eval_succ, h, K.scale_false, K.zero_xor]; exact K.step_zero
  | succ n ih => rw [eval_succ, ih ((Nat.testBit_div_two p n).trans h), ← eval_succ]

end LinearKernel

/-! ### Polynomials modulo a polynomial of degree 128

Long evaluations of these functions are part of the proofs, so they are written with Nat's own functions, each of which Lean's
kernel computes in one step. -/

/-- x·p modulo m. -/
def mulX (m p : Nat) : Nat := Nat.xor (Nat.shiftLeft p 1) (Nat.mul (Nat.mod (Nat.shiftRight p 127) 2) m)

/-- p·q modulo m by Horner's scheme, for the polynomial p of the n low bits. -/
def mulMod (m n p q : Nat) : Nat :=
  match n with
  | 0 => 0
  | n + 1 => Nat.xor (Nat.mul (Nat.mod p 2) q) (mulX m (mulMod m n (Nat.div p 2) q))

/-- x^k modulo m by repeated squaring, for an exponent of at most n bits. -/
def powX (m n k : Nat) : Nat :=
  match n with
  | 0 => 1
  | n + 1 =>
    let r := powX m n (Nat.div k 2)
    bif Nat.beq (Nat.mod k 2) 1 then mulX m (mulMod m 128 r r) else mulMod m 128 r r

theorem mulX_eq (m p : Nat) : mulX m p = p <<< 1 ^^^ (p.testBit 127).toNat * m := by
  rw [Nat.toNat_testBit, ← Nat.shiftRight_eq_div_pow]
  rfl

theorem testBit_toNat_mul (c : Bool) (m i : Nat) : (c.toNat * m).testBit i = (c && m.testBit i) := by
  cases c <;> simp

theorem mulMod_succ (m n p q : Nat) :
    mulMod m (n + 1) p q = (p.testBit 0).toNat * q ^^^ mulX m (mulMod m n (p / 2) q) := by
  rw [Nat.toNat_testBit, Nat.pow_zero, Nat.div_one]
  rfl

theorem powX_of_even {m n k : Nat} (hk : k % 2 = 0) :
    powX m (n + 1) k = mulMod m 128 (powX m n (k / 2)) (powX m n (k / 2)) := by
  have h : Nat.mod k 2 = 0 := hk
  simp only [powX, h]
  rfl

theorem powX_of_odd {m n k : Nat} (hk : k % 2 = 1) :
    powX m (n + 1) k = mulX m (mulMod m 128 (powX m n (k / 2)) (powX m n (k / 2))) := by
  have h : Nat.mod k 2 = 1 := hk
  simp only [powX, h]
  rfl

namespace LinearKernel

variable {α : Type} (K : LinearKernel α) {m : Nat} {e : α}

section
variable (htop : m.testBit 128 = true) (hm : K.eval 129 m e = K.zero)
include htop hm

theorem eval_mulX (p : Nat) : K.eval 128 (mulX m p) e = K.step (K.eval 128 p e) := by
  have htopbit : (mulX m p).testBit 128 = false := by
    have hshl : (p <<< 1).testBit 128 = p.testBit 127 := by simp [Nat.testBit_shiftLeft]
    rw [mulX_eq, Nat.testBit_xor, hshl, testBit_toNat_mul, htop, Bool.and_true, Bool.xor_self]
  have hval : K.eval 129 ((p.testBit 127).toNat * m) e = K.zero := by
    rw [K.eval_toNat_mul, hm, K.scale_zero]
  rw [← K.eval_succ_of_testBit_eq_false htopbit, mulX_eq, K.eval_xor, hval, K.xor_zero, K.eval_shiftLeft_one]

/-- The value of a product is the value of one factor at the value of the other. -/
theorem eval_mulMod (n p q : Nat) : K.eval 128 (mulMod m n p q) e = K.eval n p (K.eval 128 q e) := by
  induction n generalizing p with
  | zero => exact K.eval_zero 128 e
  | succ n ih => rw [mulMod_succ, K.eval_xor, K.eval_toNat_mul, K.eval_mulX htop hm, ih, ← eval_succ]

theorem eval_powX (n : Nat) {k : Nat} (hk : k < 2 ^ n) : K.eval 128 (powX m n k) e = K.step^[k] e := by
  induction n generalizing k with
  | zero =>
    obtain rfl : k = 0 := by omega
    exact K.eval_one 127 e
  | succ n ih =>
    have hhalf : K.eval 128 (powX m n (k / 2)) e = K.step^[k / 2] e := ih (by omega)
    have hsq : K.eval 128 (mulMod m 128 (powX m n (k / 2)) (powX m n (k / 2))) e = K.step^[k / 2 + k / 2] e := by
      rw [K.eval_mulMod htop hm, hhalf, K.eval_iterate_step, hhalf, Function.iterate_add_apply]
    rcases Nat.mod_two_eq_zero_or_one k with heven | hodd
    · rw [powX_of_even heven, hsq, show k / 2 + k / 2 = k by omega]
    · rw [powX_of_odd hodd, K.eval_mulX htop hm, hsq, ← Function.iterate_succ_apply' K.step,
        show (k / 2 + k / 2).succ = k by omega]

end

end LinearKernel

end Sys2Proof.Machine
end

section
/-! The period of a transition (43_kernels.md R148). One state whose period is the number of the non-zero states has all of them
on its orbit, so they all have that period; the period of that one state is read off N = 2^128 - 1 and its prime factors. -/

namespace Sys2Proof.Machine

/-! ### One orbit through all non-zero states -/

section
variable {α : Type} {f : α → α} {e z : α}

/-- A multiple N of the period is the period, if no N / p for a prime p is a multiple. -/
theorem minimalPeriod_eq_of_prime_factors {N : Nat} (h : f^[N] e = e)
    (hp : ∀ p, p.Prime → p ∣ N → f^[N / p] e ≠ e) : Function.minimalPeriod f e = N := by
  obtain ⟨a, ha⟩ : Function.minimalPeriod f e ∣ N := Function.IsPeriodicPt.minimalPeriod_dvd h
  by_contra hne
  have ha1 : a ≠ 1 := fun h1 => hne (by rw [ha, h1, Nat.mul_one])
  obtain ⟨p, hprime, b, rfl⟩ := Nat.exists_prime_and_dvd ha1
  have hpN : N = Function.minimalPeriod f e * b * p := by rw [ha]; ring
  refine hp p hprime ⟨_, hpN.trans (Nat.mul_comm _ _)⟩ ?_
  rw [Nat.div_eq_of_eq_mul_left hprime.pos hpN]
  exact (Function.isPeriodicPt_minimalPeriod f e).mul_const b

theorem iterate_ne_fixed (hz : f z = z) (he : e ≠ z) (hpos : 0 < Function.minimalPeriod f e) (k : Nat) : f^[k] e ≠ z := by
  intro hk
  have hper : f^[k * Function.minimalPeriod f e] e = e := (Function.isPeriodicPt_minimalPeriod f e).const_mul k
  have hfix : f^[k * Function.minimalPeriod f e - k] z = z := Function.iterate_fixed hz _
  rw [← hk, ← Function.iterate_add_apply, Nat.sub_add_cancel (Nat.le_mul_of_pos_right k hpos), hper, hk] at hfix
  exact he hfix

/-- The states on the orbit of e are as many as the states other than the fixed point. -/
theorem exists_iterate_eq (hz : f z = z) (he : e ≠ z) (hpos : 0 < Function.minimalPeriod f e)
    (hcard : Nat.card α = Function.minimalPeriod f e + 1) {S : α} (hS : S ≠ z) : ∃ k, f^[k] e = S := by
  have : Finite α := Nat.finite_of_card_ne_zero (by omega)
  have hsub : (f^[·] e) '' Set.Iio (Function.minimalPeriod f e) ⊆ {z}ᶜ := by
    rintro _ ⟨k, -, rfl⟩
    exact iterate_ne_fixed hz he hpos k
  have hle : ({z}ᶜ : Set α).ncard ≤ ((f^[·] e) '' Set.Iio (Function.minimalPeriod f e)).ncard := by
    rw [Function.iterate_injOn_Iio_minimalPeriod.ncard_image, Set.ncard_compl, hcard]
    simp
  obtain ⟨k, -, hk⟩ : S ∈ (f^[·] e) '' Set.Iio (Function.minimalPeriod f e) := by
    rw [Set.eq_of_subset_of_ncard_le hsub hle]
    exact hS
  exact ⟨k, hk⟩

theorem iterate_eq_self_iff_dvd (hz : f z = z) (he : e ≠ z) (hpos : 0 < Function.minimalPeriod f e)
    (hcard : Nat.card α = Function.minimalPeriod f e + 1) {S : α} (hS : S ≠ z) (k : Nat) :
    f^[k] S = S ↔ Function.minimalPeriod f e ∣ k := by
  obtain ⟨j, rfl⟩ := exists_iterate_eq hz he hpos hcard hS
  rw [← Function.minimalPeriod_apply_iterate (Function.minimalPeriod_pos_iff_mem_periodicPts.mp hpos) j]
  exact Function.isPeriodicPt_iff_minimalPeriod_dvd

end

/-! ### The prime factors of 2^128 - 1 -/

/-- The prime factors of 2^128 - 1, which is the product of the Fermat numbers 2^(2^i) + 1 for i < 7. -/
def periodPrimes : List Nat := [3, 5, 17, 257, 641, 65537, 274177, 6700417, 67280421310721]

/-- By Lucas's criterion: 3 generates the units. -/
theorem prime_67280421310721 : Nat.Prime 67280421310721 := by
  refine lucas_primality _ 3 (by reduce_mod_char) fun q hq hd => ?_
  have hprimes : ∀ r ∈ [2, 2, 2, 2, 2, 2, 2, 2, 5, 47, 373, 2998279], Prime r := by
    simp only [List.forall_mem_cons, ← Nat.prime_iff]
    norm_num
  have hprod : 67280421310721 - 1 = [2, 2, 2, 2, 2, 2, 2, 2, 5, 47, 373, 2998279].prod := by decide
  have hmem : q ∈ [2, 5, 47, 373, 2998279] := by simpa using mem_list_primes_of_dvd_prod hq.prime hprimes (hprod ▸ hd)
  have hpow : ∀ r ∈ [2, 5, 47, 373, 2998279], (3 : ZMod 67280421310721) ^ ((67280421310721 - 1) / r) ≠ 1 := by
    simp only [List.forall_mem_cons, Nat.reduceSub, Nat.reduceDiv]
    reduce_mod_char
    decide
  exact hpow q hmem

theorem mem_periodPrimes {p : Nat} (hp : p.Prime) (hd : p ∣ 2 ^ 128 - 1) : p ∈ periodPrimes := by
  have hprimes : ∀ q ∈ periodPrimes, Prime q := by
    simp only [periodPrimes, List.forall_mem_cons, ← Nat.prime_iff, prime_67280421310721]
    norm_num
  exact mem_list_primes_of_dvd_prod hp.prime hprimes (show periodPrimes.prod = 2 ^ 128 - 1 by decide ▸ hd)

end Sys2Proof.Machine
end

section
/-! The characteristic polynomials of the two kernels are primitive, so every non-zero state has the period 2^128 - 1
(43_kernels.md R148). -/

namespace Sys2Proof.Machine

/-! ### Primitive polynomials -/

/-- The polynomial m of degree 128 annihilates the non-zero state e, and e returns after 2^128 - 1 transitions, but not after
that number divided by one of its prime factors. -/
structure LinearKernel.PrimitiveAt {α : Type} (K : LinearKernel α) (m : Nat) (e : α) : Prop where
  ne_zero : e ≠ K.zero
  top : m.testBit 128 = true
  annihilates : K.eval 129 m e = K.zero
  returns : K.eval 128 (powX m 128 (2 ^ 128 - 1)) e = e
  not_returns : ∀ p ∈ periodPrimes, K.eval 128 (powX m 128 ((2 ^ 128 - 1) / p)) e ≠ e

namespace LinearKernel.PrimitiveAt

variable {α : Type} {K : LinearKernel α} {m : Nat} {e : α}

theorem eval_powX (h : K.PrimitiveAt m e) {k : Nat} (hk : k ≤ 2 ^ 128 - 1) :
    K.eval 128 (powX m 128 k) e = K.step^[k] e :=
  K.eval_powX h.top h.annihilates 128 (by omega)

theorem minimalPeriod_eq (h : K.PrimitiveAt m e) : Function.minimalPeriod K.step e = 2 ^ 128 - 1 := by
  refine minimalPeriod_eq_of_prime_factors ((h.eval_powX le_rfl).symm.trans h.returns) fun p hp hd => ?_
  rw [← h.eval_powX (Nat.div_le_self _ p)]
  exact h.not_returns p (mem_periodPrimes hp hd)

theorem iterate_eq_self_iff (h : K.PrimitiveAt m e) (hcard : Nat.card α = 2 ^ 128) {S : α} (hS : S ≠ K.zero) (k : Nat) :
    K.step^[k] S = S ↔ (2 ^ 128 - 1) ∣ k := by
  have hd := h.minimalPeriod_eq
  rw [← hd]
  exact iterate_eq_self_iff_dvd K.step_zero h.ne_zero (by omega) (by omega) hS k

end LinearKernel.PrimitiveAt

/-! ### The two kernels -/

/-- The xoshiro128 transition (43_kernels.md R142). -/
def x128Kernel : LinearKernel X128 where
  zero := ⟨0, 0, 0, 0⟩
  xor := X128.xor
  step := stepX128
  xor_assoc _ _ _ := by simp only [X128.xor, BitVec.xor_assoc]
  xor_comm a b := by simp only [X128.xor, BitVec.xor_comm]
  xor_self _ := by simp [X128.xor]
  zero_xor _ := by simp [X128.xor]
  step_xor := stepX128_xor

/-- The xoroshiro128 transition (43_kernels.md R145). -/
def xr128Kernel : LinearKernel XR128 where
  zero := ⟨0, 0⟩
  xor := XR128.xor
  step := stepXR128
  xor_assoc _ _ _ := by simp only [XR128.xor, BitVec.xor_assoc]
  xor_comm a b := by simp only [XR128.xor, BitVec.xor_comm]
  xor_self := XR128.xor_self
  zero_xor _ := by simp [XR128.xor]
  step_xor := stepXR128_xor

/-- The characteristic polynomial of the xoshiro128 transition (43_kernels.md R148). -/
def CHAR_X128 : Nat := 0x100fc65a2006254b11b489db6de18fc01

/-- The characteristic polynomial of the xoroshiro128 transition (43_kernels.md R148). -/
def CHAR_XR128 : Nat := 0x10008828e513b43d5095b8f76579aa001

/-- The facts about the constants of the transition, evaluated on one state: 128 squarings for each exponent. -/
theorem x128Kernel_primitiveAt : x128Kernel.PrimitiveAt CHAR_X128 ⟨1, 0, 0, 0⟩ where
  ne_zero := by decide
  top := by decide
  annihilates := by decide +kernel
  returns := by decide +kernel
  not_returns := by decide +kernel

theorem xr128Kernel_primitiveAt : xr128Kernel.PrimitiveAt CHAR_XR128 ⟨1, 0⟩ where
  ne_zero := by decide
  top := by decide
  annihilates := by decide +kernel
  returns := by decide +kernel
  not_returns := by decide +kernel

/-- Settles O29: one non-zero state of each kernel has the period 2^128 - 1, which is the number of the non-zero states, so all
of them lie on its orbit. -/
theorem periodOfEveryNonzeroState : Obligations.PeriodOfEveryNonzeroState :=
  ⟨fun _ k hS => x128Kernel_primitiveAt.iterate_eq_self_iff card_X128 hS k,
    fun _ k hS => xr128Kernel_primitiveAt.iterate_eq_self_iff card_XR128 hS k⟩

end Sys2Proof.Machine
end

section
/-! FILL sends the bytes of the native stream (20_memory.md R53, R54; 44_engine_commands.md R185-R187): the bytes of packed
beats, the bytes of native outputs, and what FILL leaves of its instance. -/

namespace Sys2Proof.Machine

open Sys2Proof.Claims

/-! ### The bytes of packed beats (20_memory.md R54) -/

/-- LE_bytes_32 inverts LE_word_32. -/
theorem leBytes_leWord (b0 b1 b2 b3 : Byte) : leBytes (leWord 32 [b0, b1, b2, b3]) = [b0, b1, b2, b3] := by
  rw [leBytes_word]
  simp only [List.cons.injEq, and_true]
  refine ⟨?_, ?_, ?_, ?_⟩ <;> refine BitVec.eq_of_getLsbD_eq fun i hi => ?_ <;> interval_cases i <;>
    simp [leWord, -BitVec.getLsbD_eq_getElem]

/-- The bytes missing in a last beat count as 0. -/
theorem leWord_append_zero (w : Nat) (bytes : List Byte) : leWord w (bytes ++ [0]) = leWord w bytes := by
  induction bytes with
  | nil => simp [leWord]
  | cons b bytes ih => rw [List.cons_append, leWord, leWord, ih]

/-- The beats of a byte sequence hold its bytes, then 0 up to the end of the last beat. -/
theorem beatBytes_packBeats (bytes : List Byte) :
    ∃ n, beatBytes (packBeats bytes) = bytes ++ List.replicate n 0 := by
  induction bytes using packBeats.induct with
  | case1 => exact ⟨0, rfl⟩
  | case2 b0 =>
    refine ⟨3, ?_⟩
    rw [packBeats, ← leWord_append_zero, ← leWord_append_zero, ← leWord_append_zero]
    simpa [beatBytes] using leBytes_leWord b0 0 0 0
  | case3 b0 b1 =>
    refine ⟨2, ?_⟩
    rw [packBeats, ← leWord_append_zero, ← leWord_append_zero]
    simpa [beatBytes] using leBytes_leWord b0 b1 0 0
  | case4 b0 b1 b2 =>
    refine ⟨1, ?_⟩
    rw [packBeats, ← leWord_append_zero]
    simpa [beatBytes] using leBytes_leWord b0 b1 b2 0
  | case5 b0 b1 b2 b3 rest ih =>
    obtain ⟨n, hn⟩ := ih
    exact ⟨n, by rw [packBeats, beatBytes_cons, leBytes_leWord, hn]; rfl⟩

theorem take_beatBytes_packBeats (bytes : List Byte) : (beatBytes (packBeats bytes)).take bytes.length = bytes := by
  obtain ⟨n, hn⟩ := beatBytes_packBeats bytes
  rw [hn, List.take_left]

theorem beatBytes_packBeats_getD (bytes : List Byte) (j : Nat) :
    (beatBytes (packBeats bytes)).getD j 0 = bytes.getD j 0 := by
  obtain ⟨n, hn⟩ := beatBytes_packBeats bytes
  rw [hn]
  rcases Nat.lt_or_ge j bytes.length with h | h
  · exact List.getD_append _ _ _ _ h
  · rw [List.getD_append_right _ _ _ _ h, List.getD_eq_default _ _ h]
    rw [List.getD_eq_getElem?_getD, List.getElem?_replicate]
    split <;> rfl

theorem leBytes_getElem? {w k : Nat} (v : BitVec w) (hk : k < w / 8) :
    (leBytes v)[k]? = some (v.extractLsb' (8 * k) 8) := by
  simp [leBytes, hk]

/-! ### The bytes of a list of pieces of equal length -/

/-- Element j of pieces of c elements each is element j mod c of piece j div c. -/
theorem getElem?_flatMap_of_length {α β : Type} {f : α → List β} {c : Nat} {l : List α}
    (h : ∀ a ∈ l, (f a).length = c) {j : Nat} (hj : j < c * l.length) :
    (l.flatMap f)[j]? = l[j / c]?.bind fun a => (f a)[j % c]? := by
  have hc : 0 < c := Nat.pos_of_mul_pos_right (Nat.zero_lt_of_lt hj)
  induction l generalizing j with
  | nil => simp at hj
  | cons a l ih =>
    have ha : (f a).length = c := h a List.mem_cons_self
    rw [List.flatMap_cons]
    rcases Nat.lt_or_ge j c with hlt | hge
    · rw [List.getElem?_append_left (ha ▸ hlt), Nat.div_eq_of_lt hlt, Nat.mod_eq_of_lt hlt]
      rfl
    · obtain ⟨i, rfl⟩ := Nat.exists_eq_add_of_le hge
      have hi : i < c * l.length := by rw [List.length_cons, Nat.mul_succ] at hj; omega
      rw [List.getElem?_append_right (ha ▸ hge), ha, Nat.add_sub_cancel_left, Nat.add_div_left i hc, Nat.add_mod_left,
        ih (fun b hb => h b (List.mem_cons_of_mem a hb)) hi]
      rfl

theorem beatByte_eq_getD (beats : List Word) (j : Nat) : beatByte beats j = (beatBytes beats).getD j 0 := by
  rw [beatByte, List.getD_eq_getElem?_getD, List.getD_eq_getElem?_getD]
  rcases Nat.lt_or_ge j (4 * beats.length) with h | h
  · have hk : j % 4 < 32 / 8 := Nat.mod_lt j (by decide)
    have hi : j / 4 < beats.length := Nat.div_lt_of_lt_mul h
    rw [beatBytes, getElem?_flatMap_of_length (fun b _ => leBytes_length b) h]
    simp [List.getElem?_eq_getElem hi, leBytes_getElem? _ hk]
  · have hi : beats.length ≤ j / 4 := (Nat.le_div_iff_mul_le (by decide)).mpr (by omega)
    rw [List.getElem?_eq_none hi, List.getElem?_eq_none (by simpa using h)]
    simp

/-! ### The bytes of the native outputs (20_memory.md R53) -/

theorem outBytes_getElem? {o : OutWord} {k : Nat} (hk : k < (outBytes o).length) :
    (outBytes o)[k]? = some (outByte o k) := by
  cases o with
  | w32 a => exact leBytes_getElem? a (by simpa [outBytes] using hk)
  | w64 a => exact leBytes_getElem? a (by simpa [outBytes] using hk)

theorem outBytes_length_of_mem {v : Variant} {k : Nat} {S S' : StateReg} {os : List OutWord}
    (h : extract v k S = some (os, S')) : ∀ o ∈ os, (outBytes o).length = v.width / 8 := by
  induction k generalizing S os with
  | zero => cases h; simp
  | succ k ih =>
    obtain ⟨o, S1, os', h1, h2, rfl⟩ := extract_succ_eq_some_iff.mp h
    simpa using ⟨outBytes_length (nativeStep_eq_some_iff.mp h1).1, ih h2⟩

/-- Byte j of k native steps is byte j mod (w/8) of output j div (w/8) (R53). -/
theorem extract_byte {v : Variant} {k j : Nat} {S S' : StateReg} {os : List OutWord}
    (h : extract v k S = some (os, S')) (hj : j < k * (v.width / 8)) :
    ∃ o, outputAt v (j / (v.width / 8)) S = some o ∧
      (os.flatMap outBytes)[j]? = some (outByte o (j % (v.width / 8))) := by
  have hw : 0 < v.width / 8 := Nat.pos_of_mul_pos_left (Nat.zero_lt_of_lt hj)
  have hlen := outBytes_length_of_mem h
  have hi : j / (v.width / 8) < k := Nat.div_lt_of_lt_mul (Nat.mul_comm k _ ▸ hj)
  rw [Nat.mul_comm, ← extract_length h] at hj
  obtain ⟨o, ho⟩ : ∃ o, os[j / (v.width / 8)]? = some o :=
    ⟨_, List.getElem?_eq_getElem (extract_length h ▸ hi)⟩
  refine ⟨o, ((extract_stream h).2 _ hi).symm.trans ho, ?_⟩
  rw [getElem?_flatMap_of_length hlen hj, ho, Option.bind_some, outBytes_getElem?]
  rw [hlen o (List.mem_of_getElem? ho)]
  exact Nat.mod_lt j hw

/-! ### FILL on a seeded scalar instance (44_engine_commands.md R185, R186) -/

/-- What FILL of `len` bytes leaves of an instance, from the native outputs it took and the state after them. -/
def Instance.filled (x : Instance) (len : BitVec 24) (os : List OutWord) (S' : StateReg) : Instance :=
  { x with
    S := S'
    LIFE := if len = 0#24 then x.LIFE else .ADVANCING
    tx := x.tx ++ 0x00000000#32 :: packBeats (fillBytes os len.toNat) }

theorem fillSteps_zero (v : Variant) : fillSteps v 0 = 0 := by cases v <;> rfl

theorem exec_fill {len : BitVec 24} {s : State} {x : Instance} {os : List OutWord} {S' : StateReg}
    (hx : s.current = some x) (hv : x.build.variant ≠ .X128SS_V) (hL : x.LIFE ≠ .UNSEEDED)
    (h : extract x.build.variant (fillSteps x.build.variant len.toNat) x.S = some (os, S')) :
    exec (.fill len) s = .next (s.setCurrent (x.filled len os S')) := by
  refine exec_of_rule hx (failedCheck_scalar (.inr (.inr ⟨len, rfl⟩)) hv hL) (fillRule_eq_next_iff.mpr ⟨os, S', h, ?_⟩)
  by_cases hlen : len = 0#24
  · subst hlen
    rw [show (0#24).toNat = 0 from rfl, fillSteps_zero] at h
    cases h
    exact .inl ⟨rfl, rfl⟩
  · exact .inr ⟨hlen, by rw [Instance.filled, if_neg hlen]; rfl⟩

/-- Settles O40: FILL packs the first LEN bytes of the native outputs (`exec_fill`); by `extract_byte` each of them is a byte
of the native stream, and by `beatBytes_packBeats_getD` the beats hold them and 0 after them. -/
theorem fillWritesTheNativeStream : Obligations.FillWritesTheNativeStream := by
  unfold Obligations.FillWritesTheNativeStream
  intro len s x hx hv hL hS
  obtain ⟨os, S', h, -⟩ := extract_total (fillSteps x.build.variant len.toNat) hS
  have hlen : (fillBytes os len.toNat).length = len.toNat := fillBytes_length h
  have hbyte (j : Nat) : beatByte (packBeats (fillBytes os len.toNat)) j = (fillBytes os len.toNat).getD j 0 := by
    rw [beatByte_eq_getD, beatBytes_packBeats_getD]
  refine ⟨S', packBeats (fillBytes os len.toNat), ?_, ?_, fun j hj => ?_, fun j hj => ?_, exec_fill hx hv hL h⟩
  · have hw : 1 ≤ x.build.variant.width / 8 := by rcases width_cases x.build.variant with h | h <;> rw [h] <;> decide
    rw [Nat.add_sub_assoc hw]
    exact (extract_stream h).1
  · rw [packBeats_length, hlen]
  · obtain ⟨o, ho, hob⟩ := extract_byte h (Nat.lt_of_lt_of_le hj (le_fillSteps_bytes _ _))
    refine ⟨o, ho, ?_⟩
    rw [hbyte, fillBytes, List.getD_eq_getElem?_getD, List.getElem?_take_of_lt hj, hob, Option.getD_some]
  · rw [hbyte, List.getD_eq_default _ _ (hlen.symm ▸ hj)]

/-! ### FILL after FILL (44_engine_commands.md R187) -/

/-- FILL a and FILL b after it send A and B and leave S2; FILL (a+b) sends C and leaves S3. -/
def FillsAgainst (a b : BitVec 24) (s : State) (x : Instance) (A B C : List Word) (S2 S3 : StateReg) : Prop :=
  ∃ (t1 t2 t3 : State) (y1 y2 y3 : Instance),
    exec (.fill a) s = .next t1 ∧ t1.current = some y1 ∧ y1.tx = x.tx ++ 0#32 :: A ∧
    exec (.fill b) t1 = .next t2 ∧ t2.current = some y2 ∧ y2.tx = y1.tx ++ 0#32 :: B ∧ y2.S = S2 ∧
    exec (.fill (a + b)) s = .next t3 ∧ t3.current = some y3 ∧ y3.tx = x.tx ++ 0#32 :: C ∧ y3.S = S3

theorem fillsAgainst_of_extract {a b : BitVec 24} {s : State} {x : Instance} {as bs cs : List OutWord}
    {S1 S2 S3 : StateReg} (hx : s.current = some x) (hv : x.build.variant ≠ .X128SS_V) (hL : x.LIFE ≠ .UNSEEDED)
    (ha : extract x.build.variant (fillSteps x.build.variant a.toNat) x.S = some (as, S1))
    (hb : extract x.build.variant (fillSteps x.build.variant b.toNat) S1 = some (bs, S2))
    (hc : extract x.build.variant (fillSteps x.build.variant (a + b).toNat) x.S = some (cs, S3)) :
    FillsAgainst a b s x (packBeats (fillBytes as a.toNat)) (packBeats (fillBytes bs b.toNat))
      (packBeats (fillBytes cs (a + b).toNat)) S2 S3 := by
  have hy : (s.setCurrent (x.filled a as S1)).current = some (x.filled a as S1) := current_setCurrent s _ hx
  have hyL : (x.filled a as S1).LIFE ≠ .UNSEEDED := by
    by_cases h0 : a = 0#24 <;> simp [Instance.filled, h0, hL]
  exact ⟨_, _, _, _, _, _, exec_fill hx hv hL ha, hy, rfl,
    exec_fill hy hv hyL hb, current_setCurrent _ _ hy, rfl, rfl,
    exec_fill hx hv hL hc, current_setCurrent s _ hx, rfl, rfl⟩

/-- A whole number of native outputs leaves none of its bytes over. -/
theorem fillSteps_of_whole {v : Variant} {a : Nat} (ha : a % (v.width / 8) = 0) : fillSteps v a * (v.width / 8) = a := by
  rcases width_cases v with hv | hv <;> rw [hv] at ha <;> simp only [fillSteps, hv] <;> omega

theorem fillSteps_add_of_whole {v : Variant} {a : Nat} (ha : a % (v.width / 8) = 0) (b : Nat) :
    fillSteps v (a + b) = fillSteps v a + fillSteps v b := by
  rcases width_cases v with hv | hv <;> rw [hv] at ha <;> simp only [fillSteps, hv] <;> omega

/-- The bytes of a whole number of native outputs, then the first b of the next ones. -/
theorem fillBytes_append {a b : Nat} {as bs : List OutWord} (h : (as.flatMap outBytes).length = a) :
    fillBytes (as ++ bs) (a + b) = fillBytes as a ++ fillBytes bs b := by
  subst h
  simp only [fillBytes, List.flatMap_append, List.take_length, List.take_length_add_append]

theorem take_beatBytes_fill {v : Variant} {len : Nat} {S S' : StateReg} {os : List OutWord}
    (h : extract v (fillSteps v len) S = some (os, S')) :
    (beatBytes (packBeats (fillBytes os len))).take len = fillBytes os len := by
  have htake := take_beatBytes_packBeats (fillBytes os len)
  rwa [fillBytes_length h] at htake

/-- FILL of whole native outputs, then FILL of b bytes. -/
theorem fill_append {a b : BitVec 24} {s : State} {x : Instance} (hx : s.current = some x)
    (hv : x.build.variant ≠ .X128SS_V) (hL : x.LIFE ≠ .UNSEEDED) (hS : x.S.fits x.build.variant = true)
    (hab : a.toNat + b.toNat < 2 ^ 24) (ha : a.toNat % (x.build.variant.width / 8) = 0) :
    ∃ (A B C : List Word) (S' : StateReg), FillsAgainst a b s x A B C S' S' ∧
      (beatBytes A).take a.toNat ++ (beatBytes B).take b.toNat = (beatBytes C).take (a.toNat + b.toNat) := by
  have hnat : (a + b).toNat = a.toNat + b.toNat := BitVec.toNat_add_of_lt hab
  obtain ⟨as, S1, has, hS1⟩ := extract_total (fillSteps x.build.variant a.toNat) hS
  obtain ⟨bs, S2, hbs, -⟩ := extract_total (fillSteps x.build.variant b.toNat) hS1
  have hcs : extract x.build.variant (fillSteps x.build.variant (a + b).toNat) x.S = some (as ++ bs, S2) := by
    rw [hnat, fillSteps_add_of_whole ha]
    exact extract_add has hbs
  refine ⟨_, _, _, S2, fillsAgainst_of_extract hx hv hL has hbs hcs, ?_⟩
  have hlen : (as.flatMap outBytes).length = a.toNat := (extract_bytes_length has).trans (fillSteps_of_whole ha)
  rw [take_beatBytes_fill has, take_beatBytes_fill hbs, ← hnat, take_beatBytes_fill hcs, hnat, fillBytes_append hlen]

/-- A seeded X128SS instance whose first two outputs are 5760 and 40320. -/
def fillExample : Instance :=
  { build := ⟨.X128SS, false⟩, S := .x128 ⟨1, 2, 3, 4⟩, LIFE := .SEEDED, ZSF := false, rx := [], tx := [] }

/-- Two FILL of 1 byte send the first bytes 0x80 and 0x80 of two outputs; FILL of 2 bytes sends the bytes 0x80 and 0x16 of
the first output. -/
theorem fill_one_one_differs :
    ∃ (s : State) (A B C : List Word) (S2 S3 : StateReg), s.current = some fillExample ∧
      FillsAgainst 1 1 s fillExample A B C S2 S3 ∧
      (beatBytes A).take 1 ++ (beatBytes B).take 1 ≠ (beatBytes C).take 2 := by
  have hfirst : extract .X128SS 1 (.x128 ⟨1, 2, 3, 4⟩) = some ([.w32 5760], .x128 ⟨7, 0, 1026, 12288⟩) := by decide
  have hsecond : extract .X128SS 1 (.x128 ⟨7, 0, 1026, 12288⟩) = some ([.w32 40320], .x128 ⟨12295, 1029, 1029, 25165824⟩) := by
    decide
  exact ⟨⟨[fillExample], 0, []⟩, _, _, _, _, _, rfl,
    fillsAgainst_of_extract (x := fillExample) rfl (by decide) (by decide) hfirst hsecond hfirst, by decide⟩

/-- Settles O41: FILL of whole words takes whole native outputs, so the outputs of FILL (a+b) are those of both (`fill_append`);
FILL 1 twice on `fillExample` drops the rest of the first output in between. -/
theorem fillComposition : Obligations.FillComposition := by
  unfold Obligations.FillComposition
  refine ⟨fun a b s x hx hv hL hS hab ha => fill_append hx hv hL hS hab ha, ?_⟩
  obtain ⟨s, A, B, C, S2, S3, hs, hfills, hne⟩ := fill_one_one_differs
  exact ⟨1, 1, s, fillExample, A, B, C, S2, S3, hs, by decide, by decide, hfills, hne⟩

end Sys2Proof.Machine
end

section
/-! Instances seeded alike answer alike (44_engine_commands.md R198): a command reads and writes its instance without looking
at the words that wait on the port, and an accepted seed leaves nothing of the old S and LIFE. -/

namespace Sys2Proof.Machine

open Sys2Proof.Claims

/-! ### A command and the words that wait on the port -/

/-- The instance with other words waiting on its port. -/
def Instance.withRx (x : Instance) (ws : List Word) : Instance := { x with rx := ws }

theorem raise_withRx (x : Instance) (ws : List Word) (e : Err) : (x.withRx ws).raise e = (x.raise e).withRx ws := by
  cases e <;> rfl

theorem ruleOf_withRx {i : Instr} {x y : Instance} (ws : List Word) (h : ruleOf i x = .next y) :
    ruleOf i (x.withRx ws) = .next (y.withRx ws) := by
  cases i with
  | seed beats =>
    obtain ⟨T, hT, ⟨hz, rfl⟩ | ⟨hz, rfl⟩⟩ := seedRule_eq_next_iff.mp h
    · exact seedRule_eq_next_iff.mpr ⟨T, hT, .inl ⟨hz, rfl⟩⟩
    · exact seedRule_eq_next_iff.mpr ⟨T, hT, .inr ⟨hz, rfl⟩⟩
  | seedU64 v => cases h; rfl
  | nextU32 =>
    obtain ⟨o, S', hS, rfl⟩ := nextU32Rule_eq_next_iff.mp h
    exact nextU32Rule_eq_next_iff.mpr ⟨o, S', hS, rfl⟩
  | nextU64 =>
    obtain ⟨os, S', r, hS, hr, rfl⟩ := nextU64Rule_eq_next_iff.mp h
    exact nextU64Rule_eq_next_iff.mpr ⟨os, S', r, hS, hr, rfl⟩
  | fill len =>
    obtain ⟨os, S', hS, ⟨hlen, rfl⟩ | ⟨hlen, rfl⟩⟩ := fillRule_eq_next_iff.mp h
    · exact fillRule_eq_next_iff.mpr ⟨os, S', hS, .inl ⟨hlen, rfl⟩⟩
    · exact fillRule_eq_next_iff.mpr ⟨os, S', hS, .inr ⟨hlen, rfl⟩⟩
  | jump =>
    obtain ⟨S', hS, rfl⟩ := jumpRule_eq_next_iff.mp h
    exact jumpRule_eq_next_iff.mpr ⟨S', hS, rfl⟩
  | stateRead =>
    obtain ⟨bytes, hbytes, rfl⟩ := stateReadRule_eq_next_iff.mp h
    exact stateReadRule_eq_next_iff.mpr ⟨bytes, hbytes, rfl⟩
  | readStatus => cases h; rfl
  | readCap => cases h; rfl

theorem command_withRx {i : Instr} {x y : Instance} (ws : List Word) (h : command i.opcode (ruleOf i) x = .next y) :
    command i.opcode (ruleOf i) (x.withRx ws) = .next (y.withRx ws) := by
  obtain ⟨e, he, rfl⟩ | ⟨hc, hr⟩ := command_eq_next_iff.mp h
  · exact command_eq_next_iff.mpr (.inl ⟨e, he, (raise_withRx x ws e).symm⟩)
  · exact command_eq_next_iff.mpr (.inr ⟨hc, ruleOf_withRx ws hr⟩)

/-- What `sameStream` leaves open is only the waiting words. -/
theorem sameStream_iff {x y : Instance} : sameStream x y ↔ y = x.withRx y.rx := by
  cases x
  cases y
  simp [sameStream, Instance.withRx, eq_comm]

theorem exec_sameStream {i : Instr} {s s' t : State} {x y : Instance} (hx : s.current = some x)
    (hy : t.current = some y) (hxy : sameStream x y) (h : exec i s = .next s') :
    ∃ t' x' y', exec i t = .next t' ∧ s'.current = some x' ∧ t'.current = some y' ∧ sameStream x' y' := by
  rw [exec_eq, onCurrent_eq_next_iff] at h
  obtain ⟨x0, x', hx0, hc, rfl⟩ := h
  obtain rfl : x = x0 := Option.some.inj (hx.symm.trans hx0)
  have hc' := command_withRx y.rx hc
  rw [← sameStream_iff.mp hxy] at hc'
  exact ⟨t.setCurrent (x'.withRx y.rx), x', x'.withRx y.rx, by rw [exec_eq, onCurrent_of_next hy hc'],
    current_setCurrent s _ hx, current_setCurrent t _ hy, sameStream_iff.mpr rfl⟩

theorem execAll_sameStream {cmds : List Instr} {s s' t : State} {x y : Instance} (hx : s.current = some x)
    (hy : t.current = some y) (hxy : sameStream x y) (h : execAll cmds s = .next s') :
    ∃ t' x' y', execAll cmds t = .next t' ∧ s'.current = some x' ∧ t'.current = some y' ∧ sameStream x' y' := by
  induction cmds generalizing s t x y with
  | nil => cases h; exact ⟨t, x, y, rfl, hx, hy, hxy⟩
  | cons i cmds ih =>
    obtain ⟨s1, hs1, hrest⟩ := execAll_cons_eq_next_iff.mp h
    obtain ⟨t1, x1, y1, ht1, hx1, hy1, hxy1⟩ := exec_sameStream hx hy hxy hs1
    rw [execAll_cons ht1]
    exact ih hx1 hy1 hxy1 hrest

/-! ### An accepted seed (44_engine_commands.md R165, R170) -/

/-- The state that SEED or SEED_U64 installs on variant `v`, if it is accepted. -/
def acceptedSeed (v : Variant) : Instr → Option StateReg
  | .seed beats => (decodeSeed v beats).filter fun T => !zeroSeed v T
  | .seedU64 u => some (seedU64State v u)
  | _ => none

theorem responseWord_error_ne_zero (e : Err) : responseWord (.error e) ≠ 0x00000000#32 := by
  cases e <;> decide

/-- A SEED or SEED_U64 that is answered OK was supported, and the words it installed are those of its operand. -/
theorem accept_of_answered_ok {i : Instr} {x y : Instance} (hi : (∃ beats, i = .seed beats) ∨ ∃ v, i = .seedU64 v)
    (h : command i.opcode (ruleOf i) x = .next y) (hok : y.tx = x.tx ++ [0x00000000#32]) :
    supported x.build i.opcode = true ∧ ∃ T, acceptedSeed x.build.variant i = some T ∧ y = x.accept T := by
  have not_raise (e : Err) (he : y = x.raise e) : False := by
    rw [he, raise_tx, List.append_cancel_left_eq, List.cons.injEq] at hok
    exact responseWord_error_ne_zero e hok.1
  obtain ⟨e, -, he⟩ | ⟨hc, hr⟩ := command_eq_next_iff.mp h
  · exact (not_raise e he).elim
  · refine ⟨(failedCheck_eq_none_iff.mp hc).1, ?_⟩
    rcases hi with ⟨beats, rfl⟩ | ⟨v, rfl⟩
    · obtain ⟨T, hT, ⟨-, he⟩ | ⟨hz, rfl⟩⟩ := seedRule_eq_next_iff.mp hr
      · exact (not_raise .ZERO_SEED he).elim
      · exact ⟨T, by simp [acceptedSeed, hT, hz], rfl⟩
    · cases hr
      exact ⟨_, rfl, rfl⟩

/-- SEED and SEED_U64 ask for no seed, so they are accepted in every LIFE (44_engine_commands.md R162, R168). -/
theorem exec_acceptedSeed {i : Instr} {s : State} {x : Instance} {T : StateReg} (hx : s.current = some x)
    (hs : supported x.build i.opcode = true) (h : acceptedSeed x.build.variant i = some T) :
    exec i s = .next (s.setCurrent (x.accept T)) := by
  cases i with
  | seed beats =>
    obtain ⟨hT, hz⟩ := Option.filter_eq_some_iff.mp h
    have hc : failedCheck (Instr.seed beats).opcode x = none := failedCheck_eq_none_iff.mpr ⟨hs, nofun⟩
    exact exec_of_rule hx hc (seedRule_eq_next_iff.mpr ⟨T, hT, .inr ⟨by simpa using hz, rfl⟩⟩)
  | seedU64 v =>
    cases h
    exact exec_of_rule hx (failedCheck_eq_none_iff.mpr ⟨hs, nofun⟩) rfl
  | nextU32 | nextU64 | fill _ | jump | stateRead | readStatus | readCap => cases h

/-- Settles O57: the same seed is accepted on the second instance (`exec_acceptedSeed`), which is then the first one up to
its waiting words, and no command looks at them (`execAll_sameStream`). -/
theorem equalSeedsGiveEqualStreams : Obligations.EqualSeedsGiveEqualStreams := by
  unfold Obligations.EqualSeedsGiveEqualStreams
  intro i cmds s t s1 t1 s2 x y x1 y1 hi hx hy hbuild hzsf htx hs ht hx1 hy1 hok hcmds
  obtain ⟨hsup, T, hT, rfl⟩ := accept_of_answered_ok hi (command_of_exec hs hx hx1) hok
  rw [hbuild] at hsup hT
  cases (exec_acceptedSeed hy hsup hT).symm.trans ht
  obtain rfl := Option.some.inj ((current_setCurrent t _ hy).symm.trans hy1)
  have hsame : sameStream (x.accept T) (y.accept T) :=
    ⟨hbuild, rfl, rfl, hzsf, by rw [accept_tx, accept_tx, htx]⟩
  exact execAll_sameStream hx1 hy1 hsame hcmds

end Sys2Proof.Machine
end

section
/-! What SEED, NEXT_U32 and NEXT_U64 answer on each variant, in the formulas of the statements (44_engine_commands.md R165-R168,
R175, R176, R180, R181, R197). -/

namespace Sys2Proof.Machine

open Sys2Proof.Claims

/-! ### The operators of the statements -/

/-- hi · 2^32 + lo keeps its halves, so it is the concatenation (00_scope.md R9). -/
theorem concat_eq_join (hi lo : Word) : concat hi lo = join hi lo := by
  have hjoin : (join hi lo).toNat = hi.toNat * 2 ^ 32 + lo.toNat := by
    rw [join, BitVec.toNat_ofNat, Nat.mod_eq_of_lt]
    have := hi.isLt
    have := lo.isLt
    omega
  have hhi : highHalf (join hi lo) = hi := BitVec.eq_of_toNat_eq <| by
    rw [highHalf, hjoin, BitVec.toNat_ofNat]
    have := hi.isLt
    have := lo.isLt
    omega
  have hlo : lowHalf (join hi lo) = lo := BitVec.eq_of_toNat_eq <| by
    rw [lowHalf, hjoin, BitVec.toNat_ofNat]
    have := lo.isLt
    omega
  calc concat hi lo
    _ = concat (high32 (join hi lo)) (low32 (join hi lo)) := by rw [high32_eq_highHalf, low32_eq_lowHalf, hhi, hlo]
    _ = join hi lo := concat_halves _

theorem starstar_eq_starStar {w : Nat} (hw : 7 < w) (x : BitVec w) : starstar x = starStar x :=
  congrArg (· * 9#w) (rotl_eq_rotateLeft _ hw)

/-! ### One native step of each scalar variant (42_scramblers.md R121-R124; 43_kernels.md R146) -/

theorem nativeStep_x128 {v : Variant} (hv : isX128 v) (S : X128) :
    nativeStep v (.x128 S) = some (.w32 (outX128 v S), .x128 (nextX128 S)) := by
  rw [← stepX128_eq_nextX128]
  rcases hv with rfl | rfl
  · exact nativeStep_eq_some_iff.mpr ⟨congrArg (some <| OutWord.w32 ·) (starstar_eq_starStar (by decide) _), rfl⟩
  · rfl

theorem nativeStep_xr128 {v : Variant} (hv : isXR128 v) (S : XR128) :
    nativeStep v (.xr128 S) = some (.w64 (outXR128 v S), .xr128 (nextXR128 S)) := by
  rw [← stepXR128_eq_nextXR128]
  rcases hv with rfl | rfl
  · exact nativeStep_eq_some_iff.mpr ⟨congrArg (some <| OutWord.w64 ·) (starstar_eq_starStar (by decide) _), rfl⟩
  · rfl

theorem nativeStep_sm64 (t : Word64) :
    nativeStep .SM64 (.sm64 t) = some (.w64 (splitMix (t + gamma)), .sm64 (t + gamma)) := rfl

theorem scalar_of_isX128 {v : Variant} (hv : isX128 v) : v ≠ .X128SS_V := by
  rcases hv with rfl | rfl <;> decide

theorem scalar_of_isXR128 {v : Variant} (hv : isXR128 v) : v ≠ .X128SS_V := by
  rcases hv with rfl | rfl <;> decide

theorem fits_x128_iff {v : Variant} {S : X128} : (StateReg.x128 S).fits v = true ↔ isX128 v := by
  simp [StateReg.fits]

theorem exists_x128_of_fits {v : Variant} {S : StateReg} (hv : isX128 v) (h : S.fits v = true) :
    ∃ T : X128, S = .x128 T := by
  cases S with
  | x128 T => exact ⟨T, rfl⟩
  | bot | sm64 _ | xr128 _ | vec _ => rcases hv with rfl | rfl <;> cases h

theorem exists_xr128_of_fits {v : Variant} {S : StateReg} (hv : isXR128 v) (h : S.fits v = true) :
    ∃ T : XR128, S = .xr128 T := by
  cases S with
  | xr128 T => exact ⟨T, rfl⟩
  | bot | sm64 _ | x128 _ | vec _ => rcases hv with rfl | rfl <;> cases h

/-! ### NEXT_U32 and NEXT_U64 on a seeded scalar instance -/

theorem exec_nextU32 {s : State} {x : Instance} {o : OutWord} {S' : StateReg} (hx : s.current = some x)
    (hv : x.build.variant ≠ .X128SS_V) (hL : x.LIFE ≠ .UNSEEDED)
    (h : nativeStep x.build.variant x.S = some (o, S')) :
    exec .nextU32 s = .next (s.setCurrent
      { x with S := S', LIFE := .ADVANCING, tx := x.tx ++ [0x00000000#32, narrow x.build.variant o] }) :=
  exec_of_rule hx (failedCheck_scalar (.inl rfl) hv hL) (nextU32Rule_eq_next_iff.mpr ⟨o, S', h, rfl⟩)

/-- NEXT_U64 on the variants whose native output is the whole result (R180). -/
theorem exec_nextU64_one {s : State} {x : Instance} {o : Word64} {S' : StateReg} (hx : s.current = some x)
    (hv : x.build.variant ≠ .X128SS_V) (hw : x.build.variant.width = 64) (hL : x.LIFE ≠ .UNSEEDED)
    (h : nativeStep x.build.variant x.S = some (.w64 o, S')) :
    exec .nextU64 s = .next (s.setCurrent
      { x with S := S', LIFE := .ADVANCING, tx := x.tx ++ [0x00000000#32, lowHalf o, highHalf o] }) := by
  have hsteps : extract x.build.variant (steps64 x.build.variant) x.S = some ([.w64 o], S') := by
    rw [steps64, hw]
    exact extract_one_eq_some_iff.mpr ⟨.w64 o, h, rfl⟩
  rw [← low32_eq_lowHalf, ← high32_eq_highHalf]
  exact exec_of_rule hx (failedCheck_scalar (.inr (.inl rfl)) hv hL)
    (nextU64Rule_eq_next_iff.mpr ⟨[.w64 o], S', o, hsteps, rfl, rfl⟩)

/-- NEXT_U64 on the variants whose native output is half of the result: the first one is the low half (R180, R181). -/
theorem exec_nextU64_two {s : State} {x : Instance} {lo hi : Word} {S1 S2 : StateReg} (hx : s.current = some x)
    (hv : x.build.variant ≠ .X128SS_V) (hw : x.build.variant.width = 32) (hL : x.LIFE ≠ .UNSEEDED)
    (hlo : nativeStep x.build.variant x.S = some (.w32 lo, S1))
    (hhi : nativeStep x.build.variant S1 = some (.w32 hi, S2)) :
    exec .nextU64 s = .next (s.setCurrent
      { x with S := S2, LIFE := .ADVANCING, tx := x.tx ++ [0x00000000#32, lo, hi] }) := by
  have hsteps : extract x.build.variant (steps64 x.build.variant) x.S = some ([.w32 lo, .w32 hi], S2) := by
    rw [steps64, hw]
    exact extract_succ_eq_some_iff.mpr
      ⟨.w32 lo, S1, [.w32 hi], hlo, extract_one_eq_some_iff.mpr ⟨.w32 hi, hhi, rfl⟩, rfl⟩
  have hbeats : beats64 (concat hi lo) = [lo, hi] := by rw [beats64, low32_concat, high32_concat]
  rw [← hbeats]
  exact exec_of_rule hx (failedCheck_scalar (.inr (.inl rfl)) hv hL)
    (nextU64Rule_eq_next_iff.mpr ⟨_, S2, concat hi lo, hsteps, rfl, rfl⟩)

theorem width_of_isX128 {v : Variant} (hv : isX128 v) : v.width = 32 := by
  rcases hv with rfl | rfl <;> rfl

theorem width_of_isXR128 {v : Variant} (hv : isXR128 v) : v.width = 64 := by
  rcases hv with rfl | rfl <;> rfl

/-- NEXT_U32 takes the upper half of an xoroshiro128 output (R176). -/
theorem narrow_of_isXR128 {v : Variant} (hv : isXR128 v) (o : Word64) : narrow v (.w64 o) = highHalf o := by
  rcases hv with rfl | rfl <;> exact high32_eq_highHalf o

/-- Settles O31: the 32-bit output is returned whole. -/
theorem nextU32OnXoshiro128 : Obligations.NextU32OnXoshiro128 := by
  unfold Obligations.NextU32OnXoshiro128
  intro s x S hx hv hL hS
  exact exec_nextU32 hx (scalar_of_isX128 hv) hL (hS ▸ nativeStep_x128 hv S)

/-- Settles O32: `narrow_of_isXR128` takes the upper half. -/
theorem nextU32OnXoroshiro128 : Obligations.NextU32OnXoroshiro128 := by
  unfold Obligations.NextU32OnXoroshiro128
  intro s x S hx hv hL hS
  rw [exec_nextU32 hx (scalar_of_isXR128 hv) hL (hS ▸ nativeStep_xr128 hv S), narrow_of_isXR128 hv]

/-- Settles O33: `narrow` takes the lower half on SM64 alone. -/
theorem nextU32OnSplitMix : Obligations.NextU32OnSplitMix := by
  unfold Obligations.NextU32OnSplitMix
  intro s x t hx hv hL hS
  have hstep : nativeStep x.build.variant x.S = some (.w64 (splitMix (t + gamma)), .sm64 (t + gamma)) := by
    rw [hv, hS, nativeStep_sm64]
  rw [exec_nextU32 hx (by rw [hv]; decide) hL hstep, narrow, if_pos hv, low32_eq_lowHalf]

/-- Settles O35: one 64-bit output is the whole result. -/
theorem nextU64OnXoroshiro128 : Obligations.NextU64OnXoroshiro128 := by
  unfold Obligations.NextU64OnXoroshiro128
  intro s x S hx hv hL hS
  exact exec_nextU64_one hx (scalar_of_isXR128 hv) (width_of_isXR128 hv) hL (hS ▸ nativeStep_xr128 hv S)

/-- Settles O36: one 64-bit output is the whole result. -/
theorem nextU64OnSplitMix : Obligations.NextU64OnSplitMix := by
  unfold Obligations.NextU64OnSplitMix
  intro s x t hx hv hL hS
  have hstep : nativeStep x.build.variant x.S = some (.w64 (splitMix (t + gamma)), .sm64 (t + gamma)) := by
    rw [hv, hS, nativeStep_sm64]
  exact exec_nextU64_one hx (by rw [hv]; decide) (by rw [hv]; rfl) hL hstep

/-- Settles O37: the second output is that of the state after the first transition. -/
theorem nextU64OnXoshiro128 : Obligations.NextU64OnXoshiro128 := by
  unfold Obligations.NextU64OnXoshiro128
  intro s x S hx hv hL hS
  exact exec_nextU64_two hx (scalar_of_isX128 hv) (width_of_isX128 hv) hL (hS ▸ nativeStep_x128 hv S) (nativeStep_x128 hv _)

/-- Settles O38: both take the outputs of S and of the state after it, as O31 and O37 say. -/
theorem nextU64IsTwoNextU32 : Obligations.NextU64IsTwoNextU32 := by
  unfold Obligations.NextU64IsTwoNextU32
  intro s x hx hv hL hfits
  obtain ⟨S, hS⟩ := exists_x128_of_fits hv hfits
  have hfirst := nextU32OnXoshiro128 s x S hx hv hL hS
  have hsecond := nextU32OnXoshiro128 _ (x.advance (.x128 (nextX128 S)) [outX128 x.build.variant S]) (nextX128 S)
    (current_setCurrent s _ hx) hv nofun rfl
  refine ⟨{ x with S := .x128 (nextX128 (nextX128 S)), LIFE := .ADVANCING }, _, _, nextU64OnXoshiro128 s x S hx hv hL hS,
    (execAll_cons hfirst).trans ((execAll_cons hsecond).trans ?_)⟩
  rw [execAll_nil, setCurrent_setCurrent, advance_tx, List.append_assoc]
  rfl

/-- Settles O39: both results are of the one output of the common S, as O32 and O35 say. -/
theorem widthDerivation : Obligations.WidthDerivation := by
  unfold Obligations.WidthDerivation
  intro s t x y hx hy hv hvar hLx hLy hfits hSy
  obtain ⟨S, hS⟩ := exists_xr128_of_fits hv hfits
  have hnext := nextU64OnXoroshiro128 t y S hy (hvar ▸ hv) hLy (hSy.trans hS)
  rw [hvar] at hnext
  exact ⟨_, _, _, nextU32OnXoroshiro128 s x S hx hv hLx hS, hnext⟩

/-! ### SEED (44_engine_commands.md R165-R168) -/

theorem decodeSeed_x128 {v : Variant} (hv : isX128 v) (b0 b1 b2 b3 : Word) :
    decodeSeed v [b0, b1, b2, b3] = some (.x128 ⟨b0, b1, b2, b3⟩) := by
  have h0 := seedWord_word [b0, b1, b2, b3] 0 b0 rfl
  have h1 := seedWord_word [b0, b1, b2, b3] 1 b1 rfl
  have h2 := seedWord_word [b0, b1, b2, b3] 2 b2 rfl
  have h3 := seedWord_word [b0, b1, b2, b3] 3 b3 rfl
  rcases hv with rfl | rfl <;>
    simp [decodeSeed, seedState, Variant.seedBytes, Variant.stateLen, Variant.width, h0, h1, h2, h3]

theorem decodeSeed_sm64 (b0 b1 : Word) : decodeSeed .SM64 [b0, b1] = some (.sm64 (concat b1 b0)) := by
  have h0 := seedWord_word64 [b0, b1] 0 b0 b1 rfl rfl
  simp [decodeSeed, seedState, Variant.seedBytes, Variant.stateLen, Variant.width, h0]

theorem decodeSeed_vec (b0 b1 b2 b3 : Word) :
    decodeSeed .X128SS_V [b0, b1, b2, b3] = some (.vec (ofLanes b0 b1 b2 b3)) := by
  have h0 := seedWord_word [b0, b1, b2, b3] 0 b0 rfl
  have h1 := seedWord_word [b0, b1, b2, b3] 1 b1 rfl
  have h2 := seedWord_word [b0, b1, b2, b3] 2 b2 rfl
  have h3 := seedWord_word [b0, b1, b2, b3] 3 b3 rfl
  simp [decodeSeed, seedState, Variant.seedBytes, Variant.stateLen, Variant.width, h0, h1, h2, h3]

/-- SEED and STATE_READ are supported on every instance but the vector unit without the lane blend (R161). -/
theorem supported_seed_iff {b : Build} : supported b .SEED = true ↔ (b.variant = .X128SS_V → b.hasLaneBlend = true) := by
  cases hv : b.variant <;> simp [supported, hv, Variant.isVector]

/-- A seed that the zero test lets pass is installed (R165, R166). -/
theorem exec_seed {s : State} {x : Instance} {beats : List Word} {T : StateReg} (hx : s.current = some x)
    (hblend : x.build.variant = .X128SS_V → x.build.hasLaneBlend = true)
    (hT : decodeSeed x.build.variant beats = some T) (hz : ¬ (isXR128 x.build.variant ∧ T = .xr128 ⟨0, 0⟩)) :
    exec (.seed beats) s = .next (s.setCurrent
      { x with S := T, LIFE := .SEEDED, tx := x.tx ++ [0x00000000#32] }) := by
  have hpass : zeroSeed x.build.variant T = false := Bool.eq_false_iff.mpr (zeroSeed_iff.not.mpr hz)
  have hseed : acceptedSeed x.build.variant (.seed beats) = some T := by simp [acceptedSeed, hT, hpass]
  exact exec_acceptedSeed hx (supported_seed_iff.mpr hblend) hseed

/-- Settles O19: `exec_seed` installs the words that the in-beats decode to. -/
theorem seedInstallsItsWords : Obligations.SeedInstallsItsWords := by
  unfold Obligations.SeedInstallsItsWords
  refine ⟨fun s x b0 b1 b2 b3 hx hv => ?_, fun s x b0 b1 b2 b3 hx hv hne => ?_, fun s x b0 b1 hx hv => ?_,
    fun s x b0 b1 b2 b3 hx hv hblend => ?_⟩
  · exact exec_seed hx (fun h => absurd h (scalar_of_isX128 hv)) (decodeSeed_x128 hv b0 b1 b2 b3) nofun
  · rw [← concat_eq_join, ← concat_eq_join]
    refine exec_seed hx (fun h => absurd h (scalar_of_isXR128 hv)) (decodeSeed_xr128 hv b0 b1 b2 b3) fun ⟨_, h0⟩ => hne ?_
    obtain ⟨h1, h2⟩ := XR128.mk.inj (StateReg.xr128.inj h0)
    obtain ⟨hb1, hb0⟩ := concat_eq_zero h1
    obtain ⟨hb3, hb2⟩ := concat_eq_zero h2
    exact ⟨hb0, hb1, hb2, hb3⟩
  · rw [← concat_eq_join]
    refine exec_seed hx (fun h => absurd (hv.symm.trans h) (by decide)) ?_ nofun
    rw [hv, decodeSeed_sm64]
  · obtain ⟨h0, h1, h2, h3⟩ := X128.mk.inj (lanesOf_ofLanes b0 b1 b2 b3)
    refine ⟨ofLanes b0 b1 b2 b3, h0, h1, h2, h3, exec_seed hx (fun _ => hblend) ?_ nofun⟩
    rw [hv, decodeSeed_vec]

end Sys2Proof.Machine
end

section
/-! The read-back commands STATE_READ, READ_STATUS and READ_CAP (44_engine_commands.md R190-R195), and where the model stops
(93_implementation_defined.md U1, U17). -/

namespace Sys2Proof.Machine

open Sys2Proof.Claims

/-! ### S in seed format (44_engine_commands.md R190, R191) -/

/-- The beats that STATE_READ sends for S and that SEED takes to install it (30_encoding.md R76). -/
def seedBeats : StateReg → List Word
  | .bot => []
  | .sm64 t => beats64 t
  | .x128 S => [S.s0, S.s1, S.s2, S.s3]
  | .xr128 S => beats64 S.s0 ++ beats64 S.s1
  | .vec vs => [lane vs 0, lane vs 1, lane vs 2, lane vs 3]

theorem stateBytes_eq_seedBeats {v : Variant} {S : StateReg} (h : S.fits v = true) :
    stateBytes v S = some (beatBytes (seedBeats S)) := by
  cases S with
  | bot => cases h
  | sm64 t =>
    obtain rfl : v = .SM64 := by simpa [StateReg.fits] using h
    rw [seedBeats, beatBytes_beats64, stateBytes]
  | x128 S => rcases fits_x128_iff.mp h with rfl | rfl <;> simp [stateBytes, seedBeats, beatBytes]
  | xr128 S =>
    rw [seedBeats, beatBytes_append, beatBytes_beats64, beatBytes_beats64]
    rcases fits_xr128_iff.mp h with rfl | rfl <;> rfl
  | vec vs =>
    obtain rfl : v = .X128SS_V := by simpa [StateReg.fits] using h
    simp [stateBytes, seedBeats, beatBytes]

/-- SEED inverts STATE_READ (R191). -/
theorem decodeSeed_seedBeats {v : Variant} {S : StateReg} (h : S.fits v = true) :
    decodeSeed v (seedBeats S) = some S := by
  cases S with
  | bot => cases h
  | sm64 t =>
    obtain rfl : v = .SM64 := by simpa [StateReg.fits] using h
    rw [seedBeats, beats64, decodeSeed_sm64, concat_halves]
  | x128 S => exact decodeSeed_x128 (fits_x128_iff.mp h) S.s0 S.s1 S.s2 S.s3
  | xr128 S =>
    have hdec := decodeSeed_xr128 (fits_xr128_iff.mp h) (low32 S.s0) (high32 S.s0) (low32 S.s1) (high32 S.s1)
    rwa [concat_halves, concat_halves] at hdec
  | vec vs =>
    obtain rfl : v = .X128SS_V := by simpa [StateReg.fits] using h
    rw [seedBeats, decodeSeed_vec]
    exact congrArg (some <| StateReg.vec ·) (toLanes_lanesOf vs)

theorem exec_stateRead {s : State} {x : Instance} (hx : s.current = some x)
    (hblend : x.build.variant = .X128SS_V → x.build.hasLaneBlend = true) (hL : x.LIFE ≠ .UNSEEDED)
    (hS : x.S.fits x.build.variant = true) :
    exec .stateRead s = .next (s.setCurrent { x with tx := x.tx ++ 0x00000000#32 :: seedBeats x.S }) := by
  have hc : failedCheck .STATE_READ x = none :=
    failedCheck_eq_none_iff.mpr ⟨supported_seed_iff.mpr hblend, fun _ => hL⟩
  have hr : stateReadRule x = .next (x.respond (seedBeats x.S)) :=
    stateReadRule_eq_next_iff.mpr ⟨_, stateBytes_eq_seedBeats hS, by rw [packBeats_beatBytes]⟩
  exact exec_of_rule hx hc hr

/-- Settles O47: `exec_stateRead` sends the beats of S, which each register shape spells out. -/
theorem stateReadSendsSeedFormat : Obligations.StateReadSendsSeedFormat := by
  unfold Obligations.StateReadSendsSeedFormat
  refine fun s x hx hL => ⟨fun S hv hS => ?_, fun S hv hS => ?_, fun t hv hS => ?_, fun vs hv hblend hS => ?_⟩
  · rw [exec_stateRead hx (fun h => absurd h (scalar_of_isX128 hv)) hL (hS ▸ fits_x128_iff.mpr hv), hS, seedBeats]
  · rw [exec_stateRead hx (fun h => absurd h (scalar_of_isXR128 hv)) hL (hS ▸ fits_xr128_iff.mpr hv), hS, seedBeats]
    simp only [← low32_eq_lowHalf, ← high32_eq_highHalf]
    rfl
  · rw [exec_stateRead hx (fun h => absurd (hv.symm.trans h) (by decide)) hL (by rw [hS, hv]; rfl), hS, seedBeats,
      beats64, low32_eq_lowHalf, high32_eq_highHalf]
  · rw [exec_stateRead hx (fun _ => hblend) hL (by rw [hS, hv]; rfl), hS]
    rfl

/-- Settles O48: a seeded instance in a legal state holds legal words, whose beats decode to them again; they are never the
all-zero xoroshiro128 state, so SEED accepts them. -/
theorem cloneInstallsTheSameState : Obligations.CloneInstallsTheSameState := by
  unfold Obligations.CloneInstallsTheSameState
  intro s t x z hx hinv hL hz hvar hblend
  have hlegal := hinv.legal hL
  have hxblend (hv : x.build.variant = .X128SS_V) : x.build.hasLaneBlend = true := by
    obtain ⟨-, -, -, -, hvec⟩ := hinv
    exact Bool.eq_true_of_not_eq_false fun hno => hL (hvec (by rw [hv]; rfl) hno)
  have hdec : decodeSeed z.build.variant (seedBeats x.S) = some x.S := hvar ▸ decodeSeed_seedBeats hlegal.fits
  exact ⟨seedBeats x.S, exec_stateRead hx hxblend hL hlegal.fits,
    exec_seed hz hblend hdec fun ⟨_, h0⟩ => hlegal.ne_zero h0⟩

/-! ### STATUS and CAP (10_state.md R26-R28) -/

/-- STATUS is ZSF·4 + LIFE (44_engine_commands.md R193). -/
theorem statusWord_eq (life : Life) (zsf : Bool) :
    statusWord life zsf = BitVec.ofNat 32 ((if zsf then 1 else 0) * 4 +
      (if life = .UNSEEDED then 0 else if life = .SEEDED then 1 else 2)) := by
  cases life <;> cases zsf <;> decide

/-- Settles O49: READ_STATUS passes the common checks on every variant and in every LIFE. -/
theorem readStatusSendsStatus : Obligations.ReadStatusSendsStatus := by
  unfold Obligations.ReadStatusSendsStatus
  intro s x hx
  have hc : failedCheck .READ_STATUS x = none := failedCheck_eq_none_iff.mpr ⟨rfl, nofun⟩
  rw [← statusWord_eq]
  exact exec_of_rule hx hc rfl

/-- The table of R28 has one constant for each build. -/
theorem cap_unique {v : Variant} {blend : Bool} {cap cap' : Word} (h : (v, blend, cap) ∈ capTable)
    (h' : (v, blend, cap') ∈ capTable) : cap = cap' := by
  cases v <;> cases blend <;> simp_all [capTable]

/-- Settles O50: READ_CAP passes the common checks on every variant and in every LIFE, and CAP is the constant of its row. -/
theorem readCapSendsTheConstant : Obligations.ReadCapSendsTheConstant := by
  unfold Obligations.ReadCapSendsTheConstant
  intro s x cap hx hcap
  have hc : failedCheck .READ_CAP x = none := failedCheck_eq_none_iff.mpr ⟨rfl, nofun⟩
  rw [cap_unique hcap (capWord_mem_capTable x.build)]
  exact exec_of_rule hx hc rfl

/-! ### Where the model stops -/

theorem exec_of_refused {i : Instr} {s : State} {x : Instance} {r : Refusal} (hx : s.current = some x)
    (hc : failedCheck i.opcode x = none) (hr : ruleOf i x = .refused r) : exec i s = .refused r := by
  rw [exec_eq, onCurrent, hx]
  simp only [command_of_checked hc, hr]

theorem eq_none_of_isSome_eq {α : Type} {o : Option α} {b : Bool} (h : o.isSome = b) (hb : b = false) : o = none :=
  Option.not_isSome_iff_eq_none.mp (Bool.eq_false_iff.mp (h.trans hb))

theorem extract_eq_none {v : Variant} {k : Nat} {S : StateReg} (hk : k ≠ 0) (hS : S.fits v = false) :
    extract v k S = none := by
  have hstep : nativeStep v S = none := eq_none_of_isSome_eq (nativeStep_isSome v S) hS
  obtain ⟨k, rfl⟩ := Nat.exists_eq_succ_of_ne_zero hk
  simp [extract, hstep]

/-- A command that reads S stops when S does not hold the words of the variant; FILL of 0 bytes reads none of it (U1). -/
theorem ruleOf_bottomRead {i : Instr} {x : Instance} (hi : needsASeed i) (hlen : ∀ len, i = .fill len → len ≠ 0#24)
    (hS : x.S.fits x.build.variant = false) : ruleOf i x = .refused .bottomRead := by
  rcases hi with rfl | rfl | ⟨len, rfl⟩ | rfl | rfl
  · rw [ruleOf, nextU32Rule, eq_none_of_isSome_eq (nativeStep_isSome _ _) hS]
  · have hk : steps64 x.build.variant ≠ 0 := by rcases width_cases x.build.variant with h | h <;> rw [steps64, h] <;> decide
    rw [ruleOf, nextU64Rule, extract_eq_none hk hS]
  · have hpos : len.toNat ≠ 0 := fun h0 => hlen len rfl (BitVec.eq_of_toNat_eq h0)
    have hk : fillSteps x.build.variant len.toNat ≠ 0 := fun h0 => by
      have := le_fillSteps_bytes x.build.variant len.toNat
      rw [h0] at this
      omega
    rw [ruleOf, fillRule, extract_eq_none hk hS]
  · rw [ruleOf, jumpRule, eq_none_of_isSome_eq (jumpOf_isSome _ _) (by rw [hS, Bool.and_false])]
  · rw [ruleOf, stateReadRule, eq_none_of_isSome_eq (stateBytes_isSome _ _) hS]

/-- The commands that read S, by the variants that support them (44_engine_commands.md R161). -/
theorem supported_of_needsASeed {i : Instr} {b : Build} (hi : needsASeed i) (hjump : i = .jump → b.variant ≠ .SM64)
    (hvec : b.variant = .X128SS_V → b.hasLaneBlend = true ∧ (i = .nextU32 ∨ i = .stateRead)) :
    supported b i.opcode = true := by
  have scalar (hne : i ≠ .nextU32 ∧ i ≠ .stateRead) : b.variant ≠ .X128SS_V := fun hv => (hvec hv).2.elim hne.1 hne.2
  have not_vector (hne : i ≠ .nextU32 ∧ i ≠ .stateRead) : (!b.variant.isVector) = true := by
    have := scalar hne
    cases hv : b.variant <;> simp_all [Variant.isVector]
  rcases hi with rfl | rfl | ⟨len, rfl⟩ | rfl | rfl
  · exact supported_seed_iff.mpr fun hv => (hvec hv).1
  · exact not_vector (by simp)
  · exact not_vector (by simp)
  · have hv := scalar (by simp)
    have hsm := hjump rfl
    change b.variant.hasJump = true
    cases h : b.variant <;> simp_all [Variant.hasJump]
  · exact supported_seed_iff.mpr fun hv => (hvec hv).1

theorem seedBytes_quarter (v : Variant) : v.seedBytes / 4 = if v = .SM64 then 2 else 4 := by
  cases v <;> rfl

/-- Settles O18: without a current instance `onCurrent` faults; a SEED with another number of beats decodes to nothing; by
`ruleOf_bottomRead` a read of other words than the variant's is refused. -/
theorem stopsOnUnreachableForms : Obligations.StopsOnUnreachableForms := by
  unfold Obligations.StopsOnUnreachableForms
  refine ⟨fun i s hs => ?_, fun beats s x hx hblend hlen => ?_, fun i s x hx hL hi hlen hjump hvec hS => ?_⟩
  · rw [exec_eq, onCurrent, hs]
  · have hc : failedCheck .SEED x = none := failedCheck_eq_none_iff.mpr ⟨supported_seed_iff.mpr hblend, nofun⟩
    have hdec : decodeSeed x.build.variant beats = none := if_neg (seedBytes_quarter x.build.variant ▸ hlen)
    have hr : seedRule beats x = .refused .misframedSeed := by rw [seedRule, hdec]
    exact exec_of_refused hx hc hr
  · have hc : failedCheck i.opcode x = none :=
      failedCheck_eq_none_iff.mpr ⟨supported_of_needsASeed hi hjump hvec, fun _ => hL⟩
    exact exec_of_refused hx hc (ruleOf_bottomRead hi hlen hS)

end Sys2Proof.Machine
end

section
/-! The order of the errors (44_engine_commands.md R160; 60_exceptions.md R247): which command words are illegal, and the response
of a legal command. -/

namespace Sys2Proof

open Sys2Proof.Claims

/-! ### Command words by number (30_encoding.md R71-R75; 60_exceptions.md R243) -/

theorem opcField_toNat (cw : Word) : (opcField cw).toNat = cw.toNat % 256 := by simp [opcField]

theorem lenField_toNat (cw : Word) : (lenField cw).toNat = cw.toNat / 256 := by
  have := cw.isLt
  rw [lenField, BitVec.extractLsb'_toNat, Nat.shiftRight_eq_div_pow, Nat.mod_eq_of_lt]
  omega

theorem opcodeOf_eq_none_iff {b : BitVec 8} : opcodeOf b = none ↔ b.toNat = 0 ∨ 10 ≤ b.toNat := by
  have h : ∀ b : BitVec 8, opcodeOf b = none ↔ b.toNat = 0 ∨ 10 ≤ b.toNat := by decide
  exact h b

/-- The decoder rejects the illegal command words, whatever in-beats follow. -/
theorem illegal_iff {cw : Word} (beats : List Word) : illegal cw ↔ ∃ r, decodeCommand cw beats = .error r := by
  rw [illegal, ← opcField_toNat, ← lenField_toNat, decodeCommand]
  cases ho : opcodeOf (opcField cw) with
  | none =>
    have hres := opcodeOf_eq_none_iff.mp ho
    exact iff_of_true (hres.imp_right .inl) ⟨_, rfl⟩
  | some o =>
    rw [opcodeOf_eq_some_iff.mp ho]
    have hzero : o.code.toNat ≠ 0 := by cases o <;> decide
    have hten : ¬ 10 ≤ o.code.toNat := by cases o <;> decide
    have hfill : o.code.toNat ≠ 5 ↔ o ≠ .FILL := by cases o <;> decide
    have hlen : (lenField cw).toNat ≠ 0 ↔ lenField cw ≠ 0 := not_congr (BitVec.toNat_eq (y := 0)).symm
    simp only [hzero, hten, hfill, hlen, false_or]
    split_ifs with hbits
    · exact iff_of_true hbits ⟨_, rfl⟩
    · exact iff_of_false hbits nofun

/-- P_in of every command word, an illegal one included (R75). -/
theorem frameBeats_eq_beatsIn (v : Variant) (cw : Word) : frameBeats v cw = beatsIn v cw := by
  rw [frameBeats, beatsIn, ← opcField_toNat]
  cases ho : opcodeOf (opcField cw) with
  | none =>
    have hres := opcodeOf_eq_none_iff.mp ho
    rw [if_neg (by omega), if_neg (by omega)]
  | some o =>
    rw [opcodeOf_eq_some_iff.mp ho]
    cases o with
    | SEED => exact Machine.seedBytes_quarter v
    | SEED_U64 | NEXT_U32 | NEXT_U64 | FILL | JUMP | STATE_READ | READ_STATUS | READ_CAP => rfl

theorem decode_of_ok {v : Variant} {cw : Word} {ws : List Word} {i : Instr} (h : frameBeats v cw ≤ ws.length)
    (hd : decodeCommand cw (ws.take (frameBeats v cw)) = .ok i) :
    decode v (cw :: ws) = .cmd i (ws.drop (frameBeats v cw)) := by
  rw [decode, if_neg (Nat.not_lt.mpr h), hd]

theorem decode_of_error {v : Variant} {cw : Word} {ws : List Word} {r : Reject} (h : frameBeats v cw ≤ ws.length)
    (hd : decodeCommand cw (ws.take (frameBeats v cw)) = .error r) :
    decode v (cw :: ws) = .reject r (ws.drop (frameBeats v cw)) := by
  rw [decode, if_neg (Nat.not_lt.mpr h), hd]

end Sys2Proof

namespace Sys2Proof.Machine

open Sys2Proof.Claims

/-! ### The response of a legal command -/

/-- The response of command `i` on instance `x`: the first error that applies, in the order of R247, else OK. -/
def firstError (i : Instr) (x : Instance) : Resp :=
  if supported x.build i.opcode = false then .error .UNSUPPORTED
  else if needsSeed i.opcode = true ∧ x.LIFE = .UNSEEDED then .error .UNSEEDED
  else if isXR128 x.build.variant ∧ i = .seed [0#32, 0#32, 0#32, 0#32] then .error .ZERO_SEED
  else .OK

theorem exec_firstError {i : Instr} {s : State} {x : Instance} (hx : s.current = some x) (hinv : x.Inv)
    (hwf : i.wellFormed x.build.variant = true) :
    ∃ y outs, exec i s = .next (s.setCurrent y) ∧ y.tx = x.tx ++ responseWord (firstError i x) :: outs := by
  unfold firstError
  split_ifs with hsup hseed hzero
  · exact ⟨_, [], exec_of_failed hx (failedCheck_eq_some_iff.mpr (.inl ⟨rfl, hsup⟩)), raise_tx x _⟩
  · have hsup : supported x.build i.opcode = true := Bool.eq_true_of_not_eq_false hsup
    exact ⟨_, [], exec_of_failed hx (failedCheck_eq_some_iff.mpr (.inr ⟨rfl, hsup, hseed⟩)), raise_tx x _⟩
  · obtain ⟨hv, rfl⟩ := hzero
    exact ⟨_, [], exec_zeroSeed hx hv, raise_tx x _⟩
  · have hL (hn : needsSeed i.opcode = true) : x.LIFE ≠ .UNSEEDED := fun h => hseed ⟨hn, h⟩
    have hc : failedCheck i.opcode x = none :=
      failedCheck_eq_none_iff.mpr ⟨Bool.eq_true_of_not_eq_false hsup, hL⟩
    obtain ⟨y, hy⟩ := ruleOf_total hwf hc fun hn => (hinv.legal (hL (needsASeed_iff.mp hn))).fits
    refine ⟨y, ?_⟩
    cases ruleEnding_of_ruleOf hy with
    | respond outs _ => exact ⟨outs, exec_of_rule hx hc hy, respond_tx x outs⟩
    | accept T _ _ _ => exact ⟨[], exec_of_rule hx hc hy, accept_tx x T⟩
    | advance T outs _ _ _ => exact ⟨outs, exec_of_rule hx hc hy, advance_tx x T outs⟩
    | reject hv hi => exact absurd ⟨hv, hi⟩ hzero

/-! ### The conditions of the statement, by operation code number -/

theorem unsupported_iff (b : Build) (o : Opcode) : unsupported b o.code.toNat ↔ supported b o = false := by
  obtain ⟨v, blend⟩ := b
  cases v <;> cases blend <;> cases o <;> decide

theorem readsState_iff (o : Opcode) : readsState o.code.toNat ↔ needsSeed o = true := by
  cases o <;> decide

/-- The in-beats of SEED on the xoroshiro variants are the four words after the command word (30_encoding.md R75, R76). -/
theorem operands_eq_zeroSeed_iff {v : Variant} (hv : isXR128 v) (o : Opcode) (len : BitVec 24) (ws : List Word) :
    operands o len (ws.take (inBeats v o)) = .seed [0#32, 0#32, 0#32, 0#32] ↔
      o.code.toNat = 1 ∧ ws.take 4 = [0#32, 0#32, 0#32, 0#32] := by
  cases o with
  | SEED =>
    have hfour : inBeats v .SEED = 4 := by rcases hv with rfl | rfl <;> rfl
    rw [hfour, operands, Instr.seed.injEq]
    exact (and_iff_right rfl).symm
  | SEED_U64 | NEXT_U32 | NEXT_U64 | FILL | JUMP | STATE_READ | READ_STATUS | READ_CAP =>
    exact iff_of_false nofun fun h => absurd h.1 (by decide)

/-! ### A whole transaction -/

theorem serve_setCurrent_getElem? {s : State} {e : Nat} {x : Instance} (rest : List Word) (y : Instance)
    (hx : s.engines[e]? = some x) : ((s.serve e x rest).setCurrent y).engines[e]? = some y :=
  current_setCurrent _ y (serve_current s e x rest hx)

theorem transact_of_reject {s : State} {e : Nat} {x : Instance} {r : Reject} {rest : List Word}
    (hx : s.engines[e]? = some x) (htx : x.tx = []) (hd : decode x.build.variant x.rx = .reject r rest) :
    ∃ t y, transact s e = .next t ∧ t.engines[e]? = some y ∧ y.tx = [responseWord (.error .ILLEGAL)] := by
  simp only [transact, hx, hd]
  exact ⟨_, _, onCurrent_of_next (serve_current s e x rest hx) rfl, serve_setCurrent_getElem? rest _ hx,
    by rw [raise_tx, htx, List.nil_append]⟩

theorem transact_firstError {s : State} {e : Nat} {x : Instance} {i : Instr} {rest : List Word}
    (hx : s.engines[e]? = some x) (hinv : x.Inv) (htx : x.tx = []) (hd : decode x.build.variant x.rx = .cmd i rest) :
    ∃ t y outs, transact s e = .next t ∧ t.engines[e]? = some y ∧ y.tx = responseWord (firstError i x) :: outs := by
  obtain ⟨hwf, -⟩ := encodeOfDecode _ _ _ _ hd
  obtain ⟨y, outs, hexec, hy⟩ := exec_firstError (serve_current s e x rest hx) hinv hwf
  exact ⟨_, y, outs, (transact_of_cmd hx hd).trans hexec, serve_setCurrent_getElem? rest y hx,
    by rw [hy, htx, List.nil_append]; rfl⟩

/-- Settles O12: the decoder rejects the illegal words (`illegal_iff`, `transact_of_reject`); a legal one is a command whose
response is `firstError` (`transact_firstError`), and each of its conditions is the statement's. -/
theorem responseCodePriority : Obligations.ResponseCodePriority := by
  unfold Obligations.ResponseCodePriority
  intro s e x cw ws hreset hx hinv htx hrx hmin hbeats
  rw [← frameBeats_eq_beatsIn] at hbeats
  have step_eq (hd : decode x.build.variant x.rx ≠ .wait) : step s = transact s e :=
    step_of_ready hreset (firstReady_of_ready hx (ready_iff.mpr ⟨htx, hd⟩) hmin)
  cases hcmd : decodeCommand cw (ws.take (frameBeats x.build.variant cw)) with
  | error r =>
    have hd : decode x.build.variant x.rx = .reject r _ := hrx ▸ decode_of_error hbeats hcmd
    have hill : illegal cw := (illegal_iff _).mpr ⟨r, hcmd⟩
    obtain ⟨t, y, ht, hyt, hy⟩ := transact_of_reject hx htx hd
    exact ⟨t, y, _, [], (step_eq (hd ▸ nofun)).trans ht, hyt, hy, fun _ => rfl, absurd hill, absurd hill, absurd hill⟩
  | ok i =>
    have hd : decode x.build.variant x.rx = .cmd i _ := hrx ▸ decode_of_ok hbeats hcmd
    have hleg : ¬ illegal cw := fun h => by
      obtain ⟨r, hr⟩ := (illegal_iff _).mp h
      cases hcmd.symm.trans hr
    obtain ⟨t, y, outs, ht, hyt, hy⟩ := transact_firstError hx hinv htx hd
    refine ⟨t, y, _, outs, (step_eq (hd ▸ nofun)).trans ht, hyt, hy, fun h => absurd h hleg, ?_⟩
    obtain ⟨o, len, rfl, -, rfl⟩ := decodeCommand_eq_ok_iff.mp hcmd
    have hopc : (commandWord o.code len).toNat % 256 = o.code.toNat := by rw [← opcField_toNat, opcField_commandWord]
    have hzero : isXR128 x.build.variant ∧ o.code.toNat = 1 ∧ ws.take 4 = [0#32, 0#32, 0#32, 0#32] ↔
        isXR128 x.build.variant ∧ operands o len (ws.take (inBeats x.build.variant o)) =
          .seed [0#32, 0#32, 0#32, 0#32] :=
      and_congr_right fun hv => (operands_eq_zeroSeed_iff hv o len ws).symm
    rw [hopc, hzero, unsupported_iff, readsState_iff, frameBeats_commandWord]
    simp only [firstError, operands_opcode]
    refine ⟨fun _ hu => ?_, fun _ hu hr => ?_, fun _ hu hr => ⟨fun hz => ?_, fun hz => ?_⟩⟩
    · rw [if_pos hu]; rfl
    · rw [if_neg hu, if_pos hr]; rfl
    · rw [if_neg hu, if_neg hr, if_pos hz]; rfl
    · rw [if_neg hu, if_neg hr, if_neg hz]; rfl

end Sys2Proof.Machine
end

section
/-! JUMP is 2^64 transitions (45_jump.md R200-R206). The walk over the bits of the jump polynomial and the sum of R202 are both
the value of that polynomial in the transition, and the jump polynomial is x^(2^64) modulo the characteristic polynomial. -/

namespace Sys2Proof.Machine

open Sys2Proof.Claims

/-! ### Two more ways to the value of a polynomial (45_jump.md R202, R203) -/

theorem map_testBit_range_succ (n p : Nat) :
    (List.range (n + 1)).map p.testBit = p.testBit 0 :: (List.range n).map (p / 2).testBit := by
  simp [List.range_succ_eq_map, Function.comp_def, Nat.testBit_succ]

namespace LinearKernel

variable {α : Type} (K : LinearKernel α)

theorem xor_scale (c : Bool) (A S : α) : K.xor A (K.scale c S) = if c then K.xor A S else A := by
  cases c
  · exact K.xor_zero A
  · rfl

theorem eval_at_zero (n p : Nat) : K.eval n p K.zero = K.zero := by
  induction n generalizing p with
  | zero => rfl
  | succ n ih => rw [eval_succ, ih, K.scale_zero, K.step_zero, K.xor_zero]

/-- Horner's scheme from the other end: the topmost coefficient adds the state n transitions ahead. -/
theorem eval_succ_top (n p : Nat) (S : α) :
    K.eval (n + 1) p S = K.xor (K.eval n p S) (K.scale (p.testBit n) (K.step^[n] S)) := by
  induction n generalizing p with
  | zero => rw [eval_succ, eval, eval, K.step_zero, K.xor_comm, Function.iterate_zero_apply]
  | succ n ih =>
    rw [eval_succ, ih, K.step_xor, K.step_scale, ← Function.iterate_succ_apply' K.step, Nat.testBit_div_two,
      ← K.xor_assoc, ← eval_succ]

/-- The sum of the states j transitions ahead over the set bits j. -/
theorem foldl_eq_eval (n p : Nat) (S : α) :
    (List.range n).foldl (fun A j => if p.testBit j then K.xor A (K.step^[j] S) else A) K.zero = K.eval n p S := by
  induction n with
  | zero => rfl
  | succ n ih => rw [List.range_succ, List.foldl_append, ih, eval_succ_top, xor_scale]; rfl

/-- A walk that adds the working state to the accumulator at each set bit and then steps the working state. -/
theorem walk_eq_eval {walk : List Bool → α → α → α} (nil : ∀ A S, walk [] A S = A)
    (cons : ∀ c cs A S, walk (c :: cs) A S = walk cs (if c then K.xor A S else A) (K.step S)) (n p : Nat) (A S : α) :
    walk ((List.range n).map p.testBit) A S = K.xor A (K.eval n p S) := by
  induction n generalizing p A S with
  | zero => rw [List.range_zero, List.map_nil, nil, eval, K.xor_zero]
  | succ n ih => rw [map_testBit_range_succ, cons, ih, ← xor_scale, K.eval_step, K.xor_assoc, ← eval_succ]

/-! ### A fixed number of transitions of a primitive kernel (45_jump.md R204-R206) -/

theorem iterate_xor (d : Nat) (S T : α) : K.step^[d] (K.xor S T) = K.xor (K.step^[d] S) (K.step^[d] T) := by
  induction d generalizing S T with
  | zero => rfl
  | succ d ih => rw [Function.iterate_succ_apply, K.step_xor, ih]; rfl

theorem iterate_ne_zero (hinj : Function.Injective K.step) {S : α} (hS : S ≠ K.zero) (d : Nat) :
    K.step^[d] S ≠ K.zero := fun h =>
  hS (hinj.iterate d (h.trans (Function.iterate_fixed K.step_zero d).symm))

namespace PrimitiveAt

variable {K} {m : Nat} {e S : α} (h : K.PrimitiveAt m e) (hcard : Nat.card α = 2 ^ 128)
include h hcard

/-- The polynomial x^k modulo m has the same value on all states: the non-zero ones are on the orbit of e. -/
theorem eval_eq_iterate {k p : Nat} (hk : k ≤ 2 ^ 128 - 1) (hp : powX m 128 k = p) (S : α) :
    K.eval 128 p S = K.step^[k] S := by
  by_cases hS : S = K.zero
  · rw [hS, K.eval_at_zero, Function.iterate_fixed K.step_zero]
  · have hper := h.minimalPeriod_eq
    obtain ⟨j, rfl⟩ := exists_iterate_eq K.step_zero h.ne_zero (by omega) (by omega) hS
    rw [K.eval_iterate_step, ← hp, h.eval_powX hk, Function.Commute.iterate_iterate_self K.step j k e]

theorem minimalPeriod_eq_of_ne_zero (hS : S ≠ K.zero) : Function.minimalPeriod K.step S = 2 ^ 128 - 1 :=
  Nat.dvd_antisymm
    (Function.IsPeriodicPt.minimalPeriod_dvd ((h.iterate_eq_self_iff hcard hS _).mpr dvd_rfl))
    ((h.iterate_eq_self_iff hcard hS _).mp (Function.isPeriodicPt_minimalPeriod K.step S))

theorem iterate_ne_self (hS : S ≠ K.zero) {d : Nat} (hpos : 0 < d) (hd : d < 2 ^ 128 - 1) : K.step^[d] S ≠ S := fun hfix =>
  Nat.not_le_of_lt hd (Nat.le_of_dvd hpos ((h.iterate_eq_self_iff hcard hS d).mp hfix))

/-- d transitions as one map, for every d that is less than the period (R205). -/
theorem iterate_laws (hbij : Function.Bijective K.step) {d : Nat} (hpos : 0 < d) (hd : d < 2 ^ 128 - 1) :
    Function.Bijective K.step^[d] ∧ (∀ S T, K.step^[d] (K.xor S T) = K.xor (K.step^[d] S) (K.step^[d] T)) ∧
    (∀ S, S ≠ K.zero → K.step^[d] S ≠ K.zero ∧ K.step^[d] S ≠ S ∧ K.step^[d] (K.step^[d] S) ≠ K.step^[d] S) ∧
    (∀ S, K.step^[d] (K.step S) = K.step (K.step^[d] S)) ∧ (∀ S, K.step^[d] (K.step^[d] S) = K.step^[2 * d] S) := by
  refine ⟨hbij.iterate d, K.iterate_xor d, fun S hS => ?_, Function.Commute.iterate_self K.step d, fun S => ?_⟩
  · have hJS : K.step^[d] S ≠ K.zero := K.iterate_ne_zero hbij.injective hS d
    exact ⟨hJS, h.iterate_ne_self hcard hS hpos hd, h.iterate_ne_self hcard hJS hpos hd⟩
  · rw [Nat.two_mul, Function.iterate_add_apply]

/-- All positions of fewer than 2^64 streams fit into one period, in which no state occurs twice (R206). -/
theorem streams_disjoint (hS : S ≠ K.zero) {N a b i j : Nat} (hN : N < Config.jumpDistance) (ha : a < N) (hb : b < N)
    (hab : a ≠ b) (hi : i < Config.jumpDistance) (hj : j < Config.jumpDistance) :
    K.step^[a * Config.jumpDistance + i] S ≠ K.step^[b * Config.jumpDistance + j] S := by
  have hinj : Set.InjOn (K.step^[·] S) (Set.Iio (2 ^ 128 - 1)) := by
    rw [← h.minimalPeriod_eq_of_ne_zero hcard hS]
    exact Function.iterate_injOn_Iio_minimalPeriod
  rw [Config.jumpDistance] at *
  intro heq
  have hpos : a * 2 ^ 64 + i = b * 2 ^ 64 + j := hinj (Set.mem_Iio.mpr (by omega)) (Set.mem_Iio.mpr (by omega)) heq
  omega

end PrimitiveAt

end LinearKernel

/-! ### The jump polynomials (45_jump.md R200, R201, R204) -/

/-- The xoshiro128 jump polynomial as one number. -/
def jumpPolyX128 : BitVec 128 := 0x77f2db5b6fa035c3f542d2d38764000b#128

/-- The xoroshiro128 jump polynomial as one number. -/
def jumpPolyXR128 : BitVec 128 := 0x170865df4b3201fcdf900294d8f554a5#128

theorem polyBits_JUMP_X128 : polyBits JUMP_X128 = (List.range 128).map jumpPolyX128.toNat.testBit := by decide

theorem polyBits_JUMP_XR128 : polyBits JUMP_XR128 = (List.range 128).map jumpPolyXR128.toNat.testBit := by decide

theorem powX_jumpDistance_X128 : powX CHAR_X128 128 Config.jumpDistance = jumpPolyX128.toNat := by decide +kernel

theorem powX_jumpDistance_XR128 : powX CHAR_XR128 128 Config.jumpDistance = jumpPolyXR128.toNat := by decide +kernel

theorem jumpDistance_pos : 0 < Config.jumpDistance := by decide

theorem jumpDistance_lt : Config.jumpDistance < 2 ^ 128 - 1 := by decide

theorem polyX128_eq_eval (p : BitVec 128) (S : X128) : polyX128 p S = x128Kernel.eval 128 p.toNat S := by
  rw [polyX128, ← funext stepX128_eq_nextX128]
  exact x128Kernel.foldl_eq_eval 128 p.toNat S

theorem polyXR128_eq_eval (p : BitVec 128) (S : XR128) : polyXR128 p S = xr128Kernel.eval 128 p.toNat S := by
  rw [polyXR128, ← funext stepXR128_eq_nextXR128]
  exact xr128Kernel.foldl_eq_eval 128 p.toNat S

theorem walkX128_JUMP (S : X128) : walkX128 (polyBits JUMP_X128) ⟨0, 0, 0, 0⟩ S = polyX128 jumpPolyX128 S := by
  rw [polyBits_JUMP_X128, polyX128_eq_eval]
  exact (x128Kernel.walk_eq_eval (fun _ _ => rfl) (fun _ _ _ _ => rfl) _ _ _ S).trans (x128Kernel.zero_xor _)

theorem walkXR128_JUMP (S : XR128) : walkXR128 (polyBits JUMP_XR128) ⟨0, 0⟩ S = polyXR128 jumpPolyXR128 S := by
  rw [polyBits_JUMP_XR128, polyXR128_eq_eval]
  exact (xr128Kernel.walk_eq_eval (fun _ _ => rfl) (fun _ _ _ _ => rfl) _ _ _ S).trans (xr128Kernel.zero_xor _)

theorem polyX128_jumpPolyX128 (S : X128) : polyX128 jumpPolyX128 S = stepX128^[Config.jumpDistance] S :=
  (polyX128_eq_eval _ S).trans
    (x128Kernel_primitiveAt.eval_eq_iterate card_X128 jumpDistance_lt.le powX_jumpDistance_X128 S)

theorem polyXR128_jumpPolyXR128 (S : XR128) : polyXR128 jumpPolyXR128 S = stepXR128^[Config.jumpDistance] S :=
  (polyXR128_eq_eval _ S).trans
    (xr128Kernel_primitiveAt.eval_eq_iterate card_XR128 jumpDistance_lt.le powX_jumpDistance_XR128 S)

/-! ### JUMP on a seeded instance (45_jump.md R203) -/

theorem jumpOf_x128 {v : Variant} (hv : isX128 v) (S : X128) :
    jumpOf v (.x128 S) = some (.x128 (polyX128 jumpPolyX128 S)) := by
  rw [← walkX128_JUMP]
  rcases hv with rfl | rfl <;> rfl

theorem jumpOf_xr128 {v : Variant} (hv : isXR128 v) (S : XR128) :
    jumpOf v (.xr128 S) = some (.xr128 (polyXR128 jumpPolyXR128 S)) := by
  rw [← walkXR128_JUMP]
  rcases hv with rfl | rfl <;> rfl

theorem jumpOf_x128_iterate {v : Variant} (hv : isX128 v) (S : X128) :
    jumpOf v (.x128 S) = some (.x128 (stepX128^[Config.jumpDistance] S)) := by
  rw [jumpOf_x128 hv, polyX128_jumpPolyX128]

theorem jumpOf_xr128_iterate {v : Variant} (hv : isXR128 v) (S : XR128) :
    jumpOf v (.xr128 S) = some (.xr128 (stepXR128^[Config.jumpDistance] S)) := by
  rw [jumpOf_xr128 hv, polyXR128_jumpPolyXR128]

/-- A variant whose register jumps supports JUMP, so only the seed is left to check. -/
theorem exec_jump {s : State} {x : Instance} {S' : StateReg} (hx : s.current = some x) (hL : x.LIFE ≠ .UNSEEDED)
    (hj : jumpOf x.build.variant x.S = some S') :
    exec .jump s = .next (s.setCurrent { x with S := S', LIFE := .ADVANCING, tx := x.tx ++ [0x00000000#32] }) := by
  have hsup : supported x.build .JUMP = true := by
    have h := jumpOf_isSome x.build.variant x.S
    rw [hj] at h
    exact (Bool.and_eq_true_iff.mp h.symm).1
  exact exec_of_rule hx (failedCheck_eq_none_iff.mpr ⟨hsup, fun _ => hL⟩) (jumpRule_eq_next_iff.mpr ⟨S', hj, rfl⟩)

/-- m JUMPs in a row lead through the states that each JUMP makes of the one before it. -/
theorem execAll_jump {s : State} {x : Instance} {S : Nat → StateReg} (hx : s.current = some x) (hL : x.LIFE ≠ .UNSEEDED)
    (hS : x.S = S 0) (hj : ∀ k, jumpOf x.build.variant (S k) = some (S (k + 1))) (m : Nat) :
    ∃ t y, execAll (List.replicate m .jump) s = .next t ∧ t.current = some y ∧ y.S = S m := by
  induction m generalizing s x S with
  | zero => exact ⟨s, x, rfl, hx, hS⟩
  | succ m ih =>
    rw [List.replicate_succ, execAll_cons (exec_jump hx hL (hS ▸ hj 0))]
    exact ih (S := fun k => S (k + 1)) (current_setCurrent s _ hx) nofun rfl fun k => hj (k + 1)

theorem iterate_mul_add_one {α : Type} (f : α → α) (k d : Nat) (a : α) : f^[d] (f^[k * d] a) = f^[(k + 1) * d] a := by
  rw [← Function.iterate_add_apply, Nat.succ_mul, Nat.add_comm]

/-! ### The statements -/

/-- Settles O44: by `jumpOf_x128_iterate` and `jumpOf_xr128_iterate` the jump polynomial has the value of 2^64 transitions. -/
theorem jumpIsTwoToThe64Steps : Obligations.JumpIsTwoToThe64Steps := by
  unfold Obligations.JumpIsTwoToThe64Steps
  refine ⟨rfl, fun s x S hx hv hL hS => ?_, fun s x S hx hv hL hS => ?_⟩
  · exact exec_jump hx hL (by rw [hS, jumpOf_x128_iterate hv])
  · exact exec_jump hx hL (by rw [hS, jumpOf_xr128_iterate hv])

/-- Settles O45: JUMP's map is 2^64 transitions, which are fewer than the period, so `iterate_laws` holds of it. -/
theorem jumpIsInvertibleAndNotIdempotent : Obligations.JumpIsInvertibleAndNotIdempotent := by
  unfold Obligations.JumpIsInvertibleAndNotIdempotent
  refine ⟨fun v hv => ⟨stepX128^[Config.jumpDistance], jumpOf_x128_iterate hv, ?_⟩,
    fun v hv => ⟨stepXR128^[Config.jumpDistance], jumpOf_xr128_iterate hv, ?_⟩⟩
  · obtain ⟨hbij, hxor, hmoves, hstep, htwice⟩ :=
      x128Kernel_primitiveAt.iterate_laws card_X128 stepX128_bijective jumpDistance_pos jumpDistance_lt
    exact ⟨hbij, hxor, hmoves, hstep, htwice, Function.iterate_fixed stepX128_zero _⟩
  · exact xr128Kernel_primitiveAt.iterate_laws card_XR128 stepXR128_bijective jumpDistance_pos jumpDistance_lt

/-- Settles O46: each JUMP is 2^64 more transitions, and `streams_disjoint` keeps the streams apart. -/
theorem parallelStreamsDoNotOverlap : Obligations.ParallelStreamsDoNotOverlap := by
  unfold Obligations.ParallelStreamsDoNotOverlap
  refine ⟨fun s x S m hx hv hL hS => ?_, fun s x S m hx hv hL hS => ?_,
    fun _ _ _ _ _ _ hS => x128Kernel_primitiveAt.streams_disjoint card_X128 hS,
    fun _ _ _ _ _ _ hS => xr128Kernel_primitiveAt.streams_disjoint card_XR128 hS⟩
  · refine execAll_jump (S := fun k => .x128 (stepX128^[k * Config.jumpDistance] S)) hx hL ?_ (fun k => ?_) m
    · rw [hS, Nat.zero_mul, Function.iterate_zero_apply]
    · rw [jumpOf_x128_iterate hv, iterate_mul_add_one]
  · refine execAll_jump (S := fun k => .xr128 (stepXR128^[k * Config.jumpDistance] S)) hx hL ?_ (fun k => ?_) m
    · rw [hS, Nat.zero_mul, Function.iterate_zero_apply]
    · rw [jumpOf_xr128_iterate hv, iterate_mul_add_one]

/-- Settles O43: the walk of JUMP is the sum over the set bits (`walkX128_JUMP`, `walkXR128_JUMP`). -/
theorem jumpFollowsThePolynomial : Obligations.JumpFollowsThePolynomial := by
  unfold Obligations.JumpFollowsThePolynomial
  refine ⟨fun s x S hx hv hL hS => ?_, fun s x S hx hv hL hS => ?_⟩
  · exact exec_jump hx hL (by rw [hS, jumpOf_x128 hv, jumpPolyX128])
  · exact exec_jump hx hL (by rw [hS, jumpOf_xr128 hv, jumpPolyXR128])

end Sys2Proof.Machine
end

section
/-! The vector unit against the scalar xoshiro128** engine (46_simd.md R221, R223, R224): the lane schedule lane by lane, and
what both units send for a seed, a number of NEXT_U32 and a STATE_READ. -/

namespace Sys2Proof.Machine

open Sys2Proof.Claims

/-! ### The lane schedule (46_simd.md R221) -/

section Lanes
variable (l0 l1 l2 l3 : Word)
@[simp] theorem lane_zero_ofLanes : lane (ofLanes l0 l1 l2 l3) 0 = l0 := congrArg X128.s0 (lanesOf_ofLanes l0 l1 l2 l3)
@[simp] theorem lane_one_ofLanes : lane (ofLanes l0 l1 l2 l3) 1 = l1 := congrArg X128.s1 (lanesOf_ofLanes l0 l1 l2 l3)
@[simp] theorem lane_two_ofLanes : lane (ofLanes l0 l1 l2 l3) 2 = l2 := congrArg X128.s2 (lanesOf_ofLanes l0 l1 l2 l3)
@[simp] theorem lane_three_ofLanes : lane (ofLanes l0 l1 l2 l3) 3 = l3 := congrArg X128.s3 (lanesOf_ofLanes l0 l1 l2 l3)
end Lanes

@[simp] theorem lane_xor (a b : BitVec 128) (i : Nat) : lane (a ^^^ b) i = lane a i ^^^ lane b i :=
  BitVec.extractLsb'_xor

/-- The two blends of R221 take lanes 0 and 1 of the first register, lane 2 of the second and lane 3 of the third. -/
theorem blend_blend (a b c : BitVec 128) :
    blend (blend a b 0b0100) c 0b1000 = ofLanes (lane a 0) (lane a 1) (lane b 2) (lane c 3) := by
  simp [blend]

theorem lanesOf_stepV (vs : BitVec 128) : lanesOf (stepV vs) = stepX128 (lanesOf vs) := by
  rw [stepV, blend_blend, lanesOf_ofLanes]
  simp [shuffle, mapLanes, stepX128, lanesOf, BitVec.xor_comm]

theorem lanesOf_toLanes (T : X128) : lanesOf (toLanes T) = T := lanesOf_ofLanes T.s0 T.s1 T.s2 T.s3

theorem stepV_toLanes (T : X128) : stepV (toLanes T) = toLanes (nextX128 T) := by
  rw [← toLanes_lanesOf (stepV _), lanesOf_stepV, lanesOf_toLanes, stepX128_eq_nextX128]

theorem nativeStep_vec (vs : BitVec 128) :
    nativeStep .X128SS_V (.vec vs) = some (.w32 (starStar (lane vs 0)), .vec (stepV vs)) :=
  nativeStep_eq_some_iff.mpr ⟨congrArg (some <| OutWord.w32 ·) (starstar_eq_starStar (by decide) _), rfl⟩

/-- Settles O30: `lanesOf_stepV` for the transition, and `nativeStep_vec` for the output, which is that of lane 0. -/
theorem vectorStepIsLaneByLane : Obligations.VectorStepIsLaneByLane := by
  unfold Obligations.VectorStepIsLaneByLane
  exact fun vs => ⟨lanesOf_stepV vs, (nativeStep_eq_some_iff.mp (nativeStep_vec vs)).1⟩

/-! ### The two units that run xoshiro128** (46_simd.md R220, R222) -/

/-- The builds that run xoshiro128**: the scalar one, and the vector unit with the lane blend. -/
def RunsStarStar (b : Build) : Prop := b.variant = .X128SS ∨ (b.variant = .X128SS_V ∧ b.hasLaneBlend = true)

theorem RunsStarStar.blend {b : Build} (h : RunsStarStar b) (hv : b.variant = .X128SS_V) : b.hasLaneBlend = true := by
  obtain hs | ⟨-, hb⟩ := h
  · exact absurd (hs.symm.trans hv) (by decide)
  · exact hb

/-- How a unit of variant `v` holds the four words T: as they are, or as the lanes of VS (10_state.md R22). -/
def x128Reg (v : Variant) (T : X128) : StateReg := if v = .X128SS_V then .vec (toLanes T) else .x128 T

theorem nativeStep_x128Reg {b : Build} (h : RunsStarStar b) (T : X128) :
    nativeStep b.variant (x128Reg b.variant T) = some (.w32 (starStar T.s0), x128Reg b.variant (nextX128 T)) := by
  obtain hv | ⟨hv, -⟩ := h
  · rw [hv]
    exact nativeStep_x128 (.inl rfl) T
  · rw [hv, x128Reg, x128Reg, if_pos rfl, if_pos rfl, nativeStep_vec, stepV_toLanes, toLanes, lane_zero_ofLanes]

theorem decodeSeed_x128Reg {b : Build} (h : RunsStarStar b) (b0 b1 b2 b3 : Word) :
    decodeSeed b.variant [b0, b1, b2, b3] = some (x128Reg b.variant ⟨b0, b1, b2, b3⟩) := by
  obtain hv | ⟨hv, -⟩ := h
  · rw [hv]
    exact decodeSeed_x128 (.inl rfl) b0 b1 b2 b3
  · rw [hv]
    exact decodeSeed_vec b0 b1 b2 b3

theorem x128Reg_fits {b : Build} (h : RunsStarStar b) (T : X128) : (x128Reg b.variant T).fits b.variant = true := by
  obtain hv | ⟨hv, -⟩ := h <;> rw [hv] <;> rfl

theorem seedBeats_x128Reg (v : Variant) (T : X128) : seedBeats (x128Reg v T) = [T.s0, T.s1, T.s2, T.s3] := by
  unfold x128Reg
  split
  · simp [seedBeats, toLanes]
  · rfl

/-! ### What both units send (46_simd.md R223) -/

/-- A seeded instance of one of the two units that holds the words T. -/
structure HoldsX128 (x : Instance) (T : X128) : Prop where
  build : RunsStarStar x.build
  seeded : x.LIFE ≠ .UNSEEDED
  S : x.S = x128Reg x.build.variant T

/-- The response words of k NEXT_U32 from the words T. -/
def nextU32Words : Nat → X128 → List Word
  | 0, _ => []
  | k + 1, T => 0x00000000#32 :: starStar T.s0 :: nextU32Words k (nextX128 T)

/-- NEXT_U32 wherever it is supported, the vector unit with the lane blend included (44_engine_commands.md R161, R175). -/
theorem exec_nextU32_of_blend {s : State} {x : Instance} {o : OutWord} {S' : StateReg} (hx : s.current = some x)
    (hblend : x.build.variant = .X128SS_V → x.build.hasLaneBlend = true) (hL : x.LIFE ≠ .UNSEEDED)
    (h : nativeStep x.build.variant x.S = some (o, S')) :
    exec .nextU32 s = .next (s.setCurrent (x.advance S' [narrow x.build.variant o])) :=
  exec_of_rule hx (failedCheck_eq_none_iff.mpr ⟨supported_seed_iff.mpr hblend, fun _ => hL⟩)
    (nextU32Rule_eq_next_iff.mpr ⟨o, S', h, rfl⟩)

theorem exec_seed_holdsX128 {s : State} {x : Instance} (hx : s.current = some x) (h : RunsStarStar x.build)
    (b0 b1 b2 b3 : Word) :
    ∃ t y, exec (.seed [b0, b1, b2, b3]) s = .next t ∧ t.current = some y ∧ y.tx = x.tx ++ [0x00000000#32] ∧
      HoldsX128 y ⟨b0, b1, b2, b3⟩ := by
  have hz : ¬ (isXR128 x.build.variant ∧ x128Reg x.build.variant ⟨b0, b1, b2, b3⟩ = .xr128 ⟨0, 0⟩) := by
    rintro ⟨hv, -⟩
    obtain hs | ⟨hs, -⟩ := h <;> rw [hs] at hv <;> revert hv <;> decide
  exact ⟨_, _, exec_seed hx h.blend (decodeSeed_x128Reg h b0 b1 b2 b3) hz, current_setCurrent s _ hx, rfl, h, nofun, rfl⟩

/-- Both units take the same native step on the words they hold, so k NEXT_U32 send the same words on both. -/
theorem execAll_nextU32_holdsX128 {s : State} {x : Instance} {T : X128} (hx : s.current = some x) (h : HoldsX128 x T)
    (k : Nat) :
    ∃ t y, execAll (List.replicate k .nextU32) s = .next t ∧ t.current = some y ∧ y.tx = x.tx ++ nextU32Words k T ∧
      HoldsX128 y (nextX128^[k] T) := by
  induction k generalizing s x T with
  | zero => exact ⟨s, x, rfl, hx, (List.append_nil _).symm, h⟩
  | succ k ih =>
    obtain ⟨hb, hL, hS⟩ := h
    have hstep := exec_nextU32_of_blend hx hb.blend hL (hS ▸ nativeStep_x128Reg hb T)
    have hnext : HoldsX128 (x.advance (x128Reg x.build.variant (nextX128 T)) [starStar T.s0]) (nextX128 T) :=
      ⟨hb, nofun, rfl⟩
    obtain ⟨t, y, ht, hy, htx, hold⟩ := ih (current_setCurrent s _ hx) hnext
    refine ⟨t, y, (execAll_cons hstep).trans ht, hy, ?_, hold⟩
    rw [htx, advance_tx, List.append_assoc]
    rfl

theorem execAll_stateRead_holdsX128 {s : State} {x : Instance} {T : X128} (hx : s.current = some x)
    (h : HoldsX128 x T) :
    ∃ t y, execAll [.stateRead] s = .next t ∧ t.current = some y ∧
      y.tx = x.tx ++ [0x00000000#32, T.s0, T.s1, T.s2, T.s3] := by
  obtain ⟨hb, hL, hS⟩ := h
  have hread := exec_stateRead hx hb.blend hL (hS ▸ x128Reg_fits hb T)
  rw [hS, seedBeats_x128Reg] at hread
  exact ⟨_, _, execAll_cons hread, current_setCurrent s _ hx, rfl⟩

theorem execAll_seed_nextU32 {s : State} {x : Instance} (hx : s.current = some x) (h : RunsStarStar x.build)
    (b0 b1 b2 b3 : Word) (k : Nat) :
    ∃ t y, execAll (.seed [b0, b1, b2, b3] :: List.replicate k .nextU32) s = .next t ∧ t.current = some y ∧
      y.tx = x.tx ++ 0x00000000#32 :: nextU32Words k ⟨b0, b1, b2, b3⟩ ∧
      HoldsX128 y (nextX128^[k] ⟨b0, b1, b2, b3⟩) := by
  obtain ⟨s1, x1, hseed, hx1, htx1, hold1⟩ := exec_seed_holdsX128 hx h b0 b1 b2 b3
  obtain ⟨t, y, ht, hy, htx, hold⟩ := execAll_nextU32_holdsX128 hx1 hold1 k
  refine ⟨t, y, (execAll_cons hseed).trans ht, hy, ?_, hold⟩
  rw [htx, htx1, List.append_assoc, List.singleton_append]

/-- The response words of SEED, k NEXT_U32 and STATE_READ, as a function of the seed and k alone. -/
def seedNextReadWords (T : X128) (k : Nat) : List Word :=
  let R := nextX128^[k] T
  0x00000000#32 :: nextU32Words k T ++ [0x00000000#32, R.s0, R.s1, R.s2, R.s3]

theorem execAll_seed_nextU32_stateRead {s : State} {x : Instance} (hx : s.current = some x) (h : RunsStarStar x.build)
    (b0 b1 b2 b3 : Word) (k : Nat) :
    ∃ t y, execAll (.seed [b0, b1, b2, b3] :: (List.replicate k .nextU32 ++ [.stateRead])) s = .next t ∧
      t.current = some y ∧ y.tx = x.tx ++ seedNextReadWords ⟨b0, b1, b2, b3⟩ k := by
  obtain ⟨s1, x1, hrun, hx1, htx1, hold⟩ := execAll_seed_nextU32 hx h b0 b1 b2 b3 k
  obtain ⟨t, y, hread, hy, htx⟩ := execAll_stateRead_holdsX128 hx1 hold
  refine ⟨t, y, (execAll_append hrun).trans hread, hy, ?_⟩
  rw [htx, htx1, List.append_assoc]
  rfl

/-! ### The statements -/

/-- Settles O34: `lanesOf_stepV` for the lanes of the new VS; the example is five outputs of the words 1, 2, 3, 4. -/
theorem nextU32OnVectorUnit : Obligations.NextU32OnVectorUnit := by
  unfold Obligations.NextU32OnVectorUnit
  refine ⟨fun s x vs hx hv hblend hL hS => ?_, fun s x hx hv hblend => ?_⟩
  · obtain ⟨h0, h1, h2, h3⟩ := X128.mk.inj ((lanesOf_stepV vs).trans (stepX128_eq_nextX128 _))
    have hstep : nativeStep x.build.variant x.S = some (.w32 (starStar (lane vs 0)), .vec (stepV vs)) := by
      rw [hv, hS, nativeStep_vec]
    exact ⟨stepV vs, ⟨h0, h1, h2, h3⟩, exec_nextU32_of_blend hx (fun _ => hblend) hL hstep⟩
  · have hfive : nextU32Words 5 ⟨1, 2, 3, 4⟩ = [0#32, 5760#32, 0#32, 40320#32, 0#32, 70819200#32, 0#32, 3297914139#32,
        0#32, 2480851620#32] := by decide
    obtain ⟨t, y, ht, hy, htx, -⟩ := execAll_seed_nextU32 hx (.inr ⟨hv, hblend⟩) 1 2 3 4 5
    exact ⟨t, y, ht, hy, hfive ▸ htx⟩

/-- Settles O58: what either unit sends is `seedNextReadWords`, which does not depend on the unit. -/
theorem scalarVectorEquivalence : Obligations.ScalarVectorEquivalence := by
  unfold Obligations.ScalarVectorEquivalence
  intro k beats s t x y hx hxv hy hyv hblend hlen
  obtain ⟨b0, b1, b2, b3, rfl⟩ := List.length_eq_four.mp hlen
  obtain ⟨s', x', hs, hx', hxtx⟩ := execAll_seed_nextU32_stateRead hx (.inl hxv) b0 b1 b2 b3 k
  obtain ⟨t', y', ht, hy', hytx⟩ := execAll_seed_nextU32_stateRead hy (.inr ⟨hyv, hblend⟩) b0 b1 b2 b3 k
  exact ⟨s', t', x', y', seedNextReadWords ⟨b0, b1, b2, b3⟩ k, hs, hx', ht, hy', hxtx, hytx⟩

end Sys2Proof.Machine
end

section
/-! The error responses (60_exceptions.md R240-R248): what each of them does, and that an error does nothing else. -/

namespace Sys2Proof.Machine

open Sys2Proof.Claims

/-! ### What an error does to its instance (60_exceptions.md R240, R241, R248) -/

/-- Every error but ERR_ZERO_SEED adds its response word and nothing else. -/
theorem raise_of_ne_zeroSeed (x : Instance) {e : Err} (he : e ≠ .ZERO_SEED) :
    x.raise e = { x with tx := x.tx ++ [responseWord (.error e)] } := by
  cases e with
  | ZERO_SEED => exact absurd rfl he
  | UNSEEDED | ILLEGAL | UNSUPPORTED => rfl

/-- A command that goes on has answered OK or raised one error. -/
theorem exec_ok_or_raise {i : Instr} {s t : State} {x y : Instance} (h : exec i s = .next t) (hx : s.current = some x)
    (hy : t.current = some y) : (∃ outs, y.tx = x.tx ++ responseWord .OK :: outs) ∨ ∃ e, y = x.raise e := by
  obtain ⟨e, -, hraise⟩ | ⟨-, hrule⟩ := exec_ending h hx hy
  · exact .inr ⟨e, hraise⟩
  · cases hrule with
    | respond outs => exact .inl ⟨outs, respond_tx x outs⟩
    | accept T => exact .inl ⟨[], accept_tx x T⟩
    | advance T outs => exact .inl ⟨outs, advance_tx x T outs⟩
    | reject => exact .inr ⟨.ZERO_SEED, rfl⟩

/-- Settles O53: by `exec_ok_or_raise` an error is `Instance.raise`, whose effects `raise_of_ne_zeroSeed` lists. -/
theorem errorsArePrecise : Obligations.ErrorsArePrecise := by
  unfold Obligations.ErrorsArePrecise
  intro i s t x y h hx hy
  obtain ⟨outs, htx⟩ | ⟨e, rfl⟩ := exec_ok_or_raise h hx hy
  · exact ⟨.OK, outs, htx, nofun⟩
  · refine ⟨.error e, [], raise_tx x e, ?_⟩
    rintro _ ⟨rfl⟩
    refine ⟨rfl, raise_of_ne_zeroSeed x, ?_⟩
    rintro rfl
    rfl

/-! ### The error of each check (60_exceptions.md R241-R244) -/

/-- A transaction that the decoder rejects is answered ERR_ILLEGAL, and its words are taken from the port. -/
theorem transact_of_reject_eq {s : State} {e : Nat} {x : Instance} {r : Reject} {rest : List Word}
    (hx : s.engines[e]? = some x) (hd : decode x.build.variant x.rx = .reject r rest) :
    transact s e = .next ((s.serve e x rest).setCurrent (({ x with rx := rest } : Instance).raise .ILLEGAL)) := by
  simp only [transact, hx, hd]
  exact onCurrent_of_next (serve_current s e x rest hx) rfl

/-- Settles O11: the decoder rejects an illegal word with its P_in in-beats (`illegal_iff`, `frameBeats_eq_beatsIn`), and so
the step serves its port: the transaction is `transact_of_reject_eq`. -/
theorem illegalCommandWordAnswered : Obligations.IllegalCommandWordAnswered := by
  unfold Obligations.IllegalCommandWordAnswered
  intro s e x cw ws hreset hx htx hrx hmin hill hbeats
  rw [← frameBeats_eq_beatsIn] at hbeats ⊢
  obtain ⟨r, hr⟩ := (illegal_iff (ws.take (frameBeats x.build.variant cw))).mp hill
  have hd : decode x.build.variant x.rx = .reject r (ws.drop (frameBeats x.build.variant cw)) :=
    hrx ▸ decode_of_error hbeats hr
  have hready : x.ready = true := ready_iff.mpr ⟨htx, hd ▸ nofun⟩
  rw [step_of_ready hreset (firstReady_of_ready hx hready hmin), transact_of_reject_eq hx hd,
    raise_of_ne_zeroSeed _ (by decide)]
  simp only [State.setCurrent, serve_engines, serve_cur, List.set_set, htx]
  rfl

/-- The commands of R244 are those that `supported` leaves out. -/
theorem supported_eq_false_of_listed {i : Instr} {b : Build}
    (h : (b.variant = .SM64 ∧ i = .jump) ∨
      (b.variant = .X128SS_V ∧ ((∃ v, i = .seedU64 v) ∨ i = .nextU64 ∨ (∃ len, i = .fill len) ∨ i = .jump)) ∨
      (b.variant = .X128SS_V ∧ b.hasLaneBlend = false ∧ i ≠ .readStatus ∧ i ≠ .readCap)) :
    supported b i.opcode = false := by
  refine (unsupported_iff b i.opcode).mp ?_
  obtain ⟨hv, rfl⟩ | ⟨hv, hi⟩ | ⟨hv, hblend, hstatus, hcap⟩ := h
  · exact .inl ⟨hv, rfl⟩
  · refine .inr (.inl ⟨hv, ?_⟩)
    obtain ⟨v, rfl⟩ | rfl | ⟨len, rfl⟩ | rfl := hi <;> simp [Instr.opcode, Opcode.code]
  · refine .inr (.inr ⟨hv, hblend, ?_⟩)
    cases i with
    | readStatus => exact absurd rfl hstatus
    | readCap => exact absurd rfl hcap
    | seed _ | seedU64 _ | nextU32 | nextU64 | fill _ | jump | stateRead => simp [Instr.opcode, Opcode.code]

/-- Settles O15: the listed commands fail the first of the common checks, and its error changes no register. -/
theorem unsupportedCommandChangesNothing : Obligations.UnsupportedCommandChangesNothing := by
  unfold Obligations.UnsupportedCommandChangesNothing
  intro i s x hx h
  have hc : failedCheck i.opcode x = some .UNSUPPORTED :=
    failedCheck_eq_some_iff.mpr (.inl ⟨rfl, supported_eq_false_of_listed h⟩)
  exact exec_of_failed hx hc

/-- Settles O16: a supported command that reads S (`supported_of_needsASeed`) fails the second of the common checks. -/
theorem unseededCommandChangesNothing : Obligations.UnseededCommandChangesNothing := by
  unfold Obligations.UnseededCommandChangesNothing
  intro i s x hx hL hi hjump hvec
  have hc : failedCheck i.opcode x = some .UNSEEDED :=
    failedCheck_eq_some_iff.mpr (.inr ⟨rfl, supported_of_needsASeed hi hjump hvec, needsASeed_iff.mp hi, hL⟩)
  exact exec_of_failed hx hc

/-- Settles O20: the all-zero SEED is rejected by `exec_zeroSeed`, and no other command is answered so
(`zeroSeedFlagIsSticky`). -/
theorem zeroSeedIsRejected : Obligations.ZeroSeedIsRejected := by
  unfold Obligations.ZeroSeedIsRejected
  refine ⟨fun s x hx hv => exec_zeroSeed hx hv, fun i s t x y h hx hy htx => ?_⟩
  obtain ⟨-, hone⟩ := zeroSeedFlagIsSticky.1 i s t x y h hx hy
  exact hone.mp htx

end Sys2Proof.Machine
end

section
/-! Reset, and the transactions that are not finished (70_reset_and_hazards.md R270, R271, R274, R283). -/

namespace Sys2Proof.Machine

open Sys2Proof.Claims

/-! ### Transactions that are not finished (70_reset_and_hazards.md R274, R283) -/

/-- With no command word, or fewer in-beats than its P_in, the decoder waits (R283). -/
theorem decode_eq_wait {v : Variant} {rx : List Word}
    (h : rx = [] ∨ ∃ (cw : Word) (ws : List Word), rx = cw :: ws ∧ ws.length < beatsIn v cw) : decode v rx = .wait := by
  obtain rfl | ⟨cw, ws, rfl, hshort⟩ := h
  · rfl
  · rw [← frameBeats_eq_beatsIn] at hshort
    exact if_pos hshort

/-- An instance is not ready while response words are left (R274) or a whole transaction has not arrived (R283). -/
theorem ready_eq_false {x : Instance} (h : x.tx ≠ [] ∨ decode x.build.variant x.rx = .wait) : x.ready = false := by
  refine Bool.eq_false_iff.mpr fun hready => ?_
  obtain ⟨htx, hd⟩ := ready_iff.mp hready
  exact h.elim (· htx) hd

/-- The instance that a step serves is ready. -/
theorem ready_of_firstReady {l : List Instance} {e : Nat} {x : Instance} (h : firstReady 0 l = some e)
    (hx : l[e]? = some x) : x.ready = true := by
  obtain ⟨j, y, rfl, hy, hready, -⟩ := firstReady_eq_some_iff.mp h
  rw [Nat.zero_add, hy] at hx
  exact Option.some.inj hx ▸ hready

/-- No instance but the one served takes part in a transaction (00_scope.md R12). -/
theorem transact_other {s t : State} {e f : Nat} (h : transact s f = .next t) (hne : e ≠ f) :
    t.engines[e]? = s.engines[e]? := by
  have hserve (x : Instance) (rest : List Word) : (s.serve f x rest).engines[e]? = s.engines[e]? :=
    List.getElem?_set_ne hne.symm
  obtain ⟨x, -, ⟨-, rfl⟩ | ⟨i, rest, -, h⟩ | ⟨r, rest, -, rfl⟩⟩ := transact_eq_next h
  · rfl
  · obtain ⟨y, z, -, rfl, -⟩ := exec_eq_next_iff.mp h
    exact (setCurrent_other _ z hne).trans (hserve x rest)
  · exact (setCurrent_other _ _ hne).trans (hserve x rest)

/-- The host's use of the port of instance `f` leaves an instance `e` alone, unless it is `f` itself. -/
theorem onPort_getElem? {s t : State} {e f : Nat} {x : Instance} {g : Instance → Instance}
    (h : onPort s f g = .next t) (hx : s.engines[e]? = some x) :
    t.engines[e]? = some x ∨ (f = e ∧ t.engines[e]? = some (g x)) := by
  cases hy : s.engines[f]? with
  | none => cases (onPort_of_none hy).symm.trans h
  | some y =>
    cases (onPort_of_some hy).symm.trans h
    by_cases hfe : f = e
    · subst hfe
      cases hy.symm.trans hx
      exact .inr ⟨rfl, List.getElem?_set_self (List.getElem?_eq_some_iff.mp hx).1⟩
    · exact .inl ((List.getElem?_set_ne hfe).trans hx)

/-- Settles O13: such an instance is not ready, so the transaction of the step is another instance's (`transact_other`), and
an input of the host changes its port alone (`onPort_getElem?`). -/
theorem unfinishedTransactionIsHeld : Obligations.UnfinishedTransactionIsHeld := by
  unfold Obligations.UnfinishedTransactionIsHeld
  intro s t e x hreset hx hunfinished hstep
  have hready : x.ready = false := ready_eq_false (hunfinished.imp_right decode_eq_wait)
  obtain ⟨rest, hi, hs⟩ | ⟨f, -, hf, hs⟩ | ⟨h, rest, hi, hr, -, hs⟩ | ⟨-, -, hs⟩ := step_cases s <;> rw [hs] at hstep
  · exact absurd (congrArg List.head? hi) hreset
  · have hne : e ≠ f := by
      rintro rfl
      exact Bool.false_ne_true (hready.symm.trans (ready_of_firstReady hf hx))
    exact ⟨x, (transact_other hstep hne).trans hx, rfl, rfl, rfl, rfl, .inl rfl, .inl rfl⟩
  · have hinput : s.inputs.head? = some h := congrArg List.head? hi
    cases h with
    | send f w =>
      obtain ht | ⟨rfl, ht⟩ := onPort_getElem? hstep hx
      · exact ⟨x, ht, rfl, rfl, rfl, rfl, .inl rfl, .inl rfl⟩
      · exact ⟨_, ht, rfl, rfl, rfl, rfl, .inr ⟨w, hinput, rfl⟩, .inl rfl⟩
    | take f =>
      obtain ht | ⟨rfl, ht⟩ := onPort_getElem? hstep hx
      · exact ⟨x, ht, rfl, rfl, rfl, rfl, .inl rfl, .inl rfl⟩
      · exact ⟨_, ht, rfl, rfl, rfl, rfl, .inl rfl, .inr ⟨hinput, rfl⟩⟩
    | reset => exact absurd rfl hr
  · cases hstep
    exact ⟨x, hx, rfl, rfl, rfl, rfl, .inl rfl, .inl rfl⟩

/-! ### Reset (70_reset_and_hazards.md R270, R271) -/

theorem applyReset_length (s : State) : s.applyReset.engines.length = s.engines.length := by
  simp [State.applyReset]

theorem applyReset_getElem? {s : State} {e : Nat} {x : Instance} (hx : s.engines[e]? = some x) :
    s.applyReset.engines[e]? = some (Instance.reset x.build) := by
  simp [State.applyReset, hx]

/-- Settles O2: the step is the reset (`step_of_reset`), which leaves at each index the reset values of its build. -/
theorem resetInputAbandonsTransactions : Obligations.ResetInputAbandonsTransactions := by
  unfold Obligations.ResetInputAbandonsTransactions
  intro s rest hi
  exact ⟨_, step_of_reset hi, rfl, applyReset_length s, fun e x hx => applyReset_getElem? hx⟩

end Sys2Proof.Machine
end
